-- ==== Sys2Proof/Word.lean ====
section
/-! DEFINITION. The widths of the machine's values (00_scope.md R6, R8; 10_state.md R20). -/

namespace Sys2Proof

/-- A 32-bit value: an x register, the pc, an address, an instruction word (R6, R20, R40, R70). -/
abbrev Word := BitVec 32

/-- One byte of memory (R40). -/
abbrev Byte := BitVec 8

/-- A register number: a 5-bit field whose unsigned value names x0 .. x31 (R20, R83). -/
abbrev Reg := BitVec 5

/-- The shift amount of SLLI, SRLI and SRAI: `inst[24:20]` (R78). -/
abbrev Shamt := BitVec 5

/-- The immediate field of the I-type and S-type formats: `inst[31:20]` (R72, R73). -/
abbrev Imm12 := BitVec 12

/-- The immediate field of the U-type format: `inst[31:12]` (R74). -/
abbrev Imm20 := BitVec 20

end Sys2Proof
end

