-- ==== Sys2Proof/Config.lean ====
section
/-! DEFINITION. The parameters the spec leaves to the launch (00_scope.md R7), as types, and the
values this model gives them at `State.reset` (notes/assumptions 1 to 5). -/

namespace Sys2Proof

/-- `BYTE_ORDER` (00_scope.md R7, 20_memory.md R43): one value for data and fetch, fixed for a run. -/
inductive ByteOrder where
  | little
  | big
  deriving DecidableEq, Repr

/-- A stretch of the address space with its permissions: the byte addresses
`base .. base + size - 1`, never past 0xFFFFFFFF. -/
structure Region where
  base : Word
  size : Nat
  readable : Bool
  writable : Bool
  executable : Bool
  deriving DecidableEq, Repr

/-- The memory map of 20_memory.md R51 as plain data. The first region that holds an address decides
its permissions; an address in no region is unmapped. Any three predicates on 32-bit
addresses can be written so, since the address space is finite. -/
abbrev MemMap := List Region

namespace Config

/-- What a byte of memory that no entry lists reads as. DESIGN CHOICE (notes/assumptions/3.md). -/
def unlistedByte : Byte := 0

/-- x1 .. x31 at `State.reset`. DESIGN CHOICE (notes/assumptions/1.md): R35 gives `INIT_X` no value. -/
def resetReg : Word := 0

/-- pc at `State.reset`. DESIGN CHOICE (notes/assumptions/2.md): R35 gives `ENTRY_PC` no value; this is
the pc of the spec's one-instruction vectors (95_test_vectors.md section 2.2). -/
def resetPc : Word := 0x00000100

/-- `HALT_PC` at `State.reset`. DESIGN CHOICE (notes/assumptions/5.md): a misaligned value different from
the entry, by which 70_reset_and_hazards.md R205 lets a model want no end condition. -/
def resetHaltPc : Word := 0xFFFFFFFF

/-- `BYTE_ORDER` at `State.reset`: the default 00_scope.md R7 states. -/
def resetByteOrder : ByteOrder := .little

/-- The memory map at `State.reset`. DESIGN CHOICE (notes/assumptions/4.md): every byte readable and
writable, none executable until a program is placed. -/
def resetMap : MemMap := [{ base := 0, size := 4294967296, readable := true, writable := true, executable := false }]

end Config

end Sys2Proof
end

