-- ==== Sys2Proof/Syntax.lean ====
section
/-! DEFINITION. The 37 instructions of spec/opcode_table.json, one constructor a row, in the table's
order (00_scope.md R4). Operands are the fields of the encoding, in the order assembly writes them
(30_encoding.md R88). Every term is a legal instruction: every register number and
immediate is legal (10_state.md R20, 30_encoding.md R86). -/

namespace Sys2Proof

/-- The instruction set (00_scope.md R4). -/
inductive Instr where
  -- Table 1: integer register-immediate (40_integer_register_immediate.md)
  | addi (rd rs1 : Reg) (imm : Imm12)
  | slti (rd rs1 : Reg) (imm : Imm12)
  | sltiu (rd rs1 : Reg) (imm : Imm12)
  | andi (rd rs1 : Reg) (imm : Imm12)
  | ori (rd rs1 : Reg) (imm : Imm12)
  | xori (rd rs1 : Reg) (imm : Imm12)
  | slli (rd rs1 : Reg) (shamt : Shamt)
  | srli (rd rs1 : Reg) (shamt : Shamt)
  | srai (rd rs1 : Reg) (shamt : Shamt)
  | lui (rd : Reg) (imm : Imm20)
  | auipc (rd : Reg) (imm : Imm20)
  -- Table 2: integer register-register (41_integer_register_register.md)
  | add (rd rs1 rs2 : Reg)
  | slt (rd rs1 rs2 : Reg)
  | sltu (rd rs1 rs2 : Reg)
  | and (rd rs1 rs2 : Reg)
  | or (rd rs1 rs2 : Reg)
  | xor (rd rs1 rs2 : Reg)
  | sll (rd rs1 rs2 : Reg)
  | srl (rd rs1 rs2 : Reg)
  | sub (rd rs1 rs2 : Reg)
  | sra (rd rs1 rs2 : Reg)
  -- Tables 3 and 4: control transfer (42_control_transfer.md)
  | jal (rd : Reg) (imm : Imm20)
  | jalr (rd rs1 : Reg) (imm : Imm12)
  | beq (rs1 rs2 : Reg) (imm : Imm12)
  | bne (rs1 rs2 : Reg) (imm : Imm12)
  | blt (rs1 rs2 : Reg) (imm : Imm12)
  | bltu (rs1 rs2 : Reg) (imm : Imm12)
  | bge (rs1 rs2 : Reg) (imm : Imm12)
  | bgeu (rs1 rs2 : Reg) (imm : Imm12)
  -- Table 5: loads and stores (43_load_store.md); of a store, rs2 is the register stored
  | lw (rd rs1 : Reg) (imm : Imm12)
  | lh (rd rs1 : Reg) (imm : Imm12)
  | lhu (rd rs1 : Reg) (imm : Imm12)
  | lb (rd rs1 : Reg) (imm : Imm12)
  | lbu (rd rs1 : Reg) (imm : Imm12)
  | sw (rs2 rs1 : Reg) (imm : Imm12)
  | sh (rs2 rs1 : Reg) (imm : Imm12)
  | sb (rs2 rs1 : Reg) (imm : Imm12)
  deriving DecidableEq, Repr

end Sys2Proof
end

