-- ==== Sys2Proof/WellFormed.lean ====
section
/-! DEFINITION. Which 32-bit words are instructions, said twice and independently of the decoder: by the
match and mask columns of the opcode table (30_encoding.md R84), and by the seven classes of
illegal words (R85). Terms of `Instr` need no check: their types admit only legal operands (R20, R86). -/

namespace Sys2Proof

/-- The match and mask of a row of the opcode table: a word w is the row's instruction exactly when
`w & mask = match` (30_encoding.md R84). -/
structure TableRow where
  bits : Word
  mask : Word
  deriving DecidableEq, Repr

/-- Whether the word is one the row describes (R84). -/
def TableRow.holds (r : TableRow) (w : Word) : Bool := w &&& r.mask == r.bits

/-- The row of the opcode table of each instruction, as 30_encoding.md R84 lists them. -/
def Instr.tableRow : Instr → TableRow
  | .addi _ _ _ => ⟨0x00000013, 0x0000707F⟩
  | .slti _ _ _ => ⟨0x00002013, 0x0000707F⟩
  | .sltiu _ _ _ => ⟨0x00003013, 0x0000707F⟩
  | .andi _ _ _ => ⟨0x00007013, 0x0000707F⟩
  | .ori _ _ _ => ⟨0x00006013, 0x0000707F⟩
  | .xori _ _ _ => ⟨0x00004013, 0x0000707F⟩
  | .slli _ _ _ => ⟨0x00001013, 0xFE00707F⟩
  | .srli _ _ _ => ⟨0x00005013, 0xFE00707F⟩
  | .srai _ _ _ => ⟨0x40005013, 0xFE00707F⟩
  | .lui _ _ => ⟨0x00000037, 0x0000007F⟩
  | .auipc _ _ => ⟨0x00000017, 0x0000007F⟩
  | .add _ _ _ => ⟨0x00000033, 0xFE00707F⟩
  | .slt _ _ _ => ⟨0x00002033, 0xFE00707F⟩
  | .sltu _ _ _ => ⟨0x00003033, 0xFE00707F⟩
  | .and _ _ _ => ⟨0x00007033, 0xFE00707F⟩
  | .or _ _ _ => ⟨0x00006033, 0xFE00707F⟩
  | .xor _ _ _ => ⟨0x00004033, 0xFE00707F⟩
  | .sll _ _ _ => ⟨0x00001033, 0xFE00707F⟩
  | .srl _ _ _ => ⟨0x00005033, 0xFE00707F⟩
  | .sub _ _ _ => ⟨0x40000033, 0xFE00707F⟩
  | .sra _ _ _ => ⟨0x40005033, 0xFE00707F⟩
  | .jal _ _ => ⟨0x0000006F, 0x0000007F⟩
  | .jalr _ _ _ => ⟨0x00000067, 0x0000707F⟩
  | .beq _ _ _ => ⟨0x00000063, 0x000003FF⟩
  | .bne _ _ _ => ⟨0x000000E3, 0x000003FF⟩
  | .blt _ _ _ => ⟨0x00000263, 0x000003FF⟩
  | .bltu _ _ _ => ⟨0x00000363, 0x000003FF⟩
  | .bge _ _ _ => ⟨0x000002E3, 0x000003FF⟩
  | .bgeu _ _ _ => ⟨0x000003E3, 0x000003FF⟩
  | .lw _ _ _ => ⟨0x00002003, 0x0000707F⟩
  | .lh _ _ _ => ⟨0x00001003, 0x0000707F⟩
  | .lhu _ _ _ => ⟨0x00005003, 0x0000707F⟩
  | .lb _ _ _ => ⟨0x00000003, 0x0000707F⟩
  | .lbu _ _ _ => ⟨0x00004003, 0x0000707F⟩
  | .sw _ _ _ => ⟨0x00000123, 0x000003FF⟩
  | .sh _ _ _ => ⟨0x000000A3, 0x000003FF⟩
  | .sb _ _ _ => ⟨0x00000023, 0x000003FF⟩

/-- The 37 rows of the opcode table (R84). -/
def opcodeTable : List TableRow :=
  [.addi 0 0 0, .slti 0 0 0, .sltiu 0 0 0, .andi 0 0 0, .ori 0 0 0, .xori 0 0 0, .slli 0 0 0, .srli 0 0 0,
    .srai 0 0 0, .lui 0 0, .auipc 0 0].map Instr.tableRow ++
  [.add 0 0 0, .slt 0 0 0, .sltu 0 0 0, .and 0 0 0, .or 0 0 0, .xor 0 0 0, .sll 0 0 0, .srl 0 0 0, .sub 0 0 0,
    .sra 0 0 0].map Instr.tableRow ++
  [.jal 0 0, .jalr 0 0 0, .beq 0 0 0, .bne 0 0 0, .blt 0 0 0, .bltu 0 0 0, .bge 0 0 0, .bgeu 0 0 0].map Instr.tableRow ++
  [.lw 0 0 0, .lh 0 0 0, .lhu 0 0 0, .lb 0 0 0, .lbu 0 0 0, .sw 0 0 0, .sh 0 0 0, .sb 0 0 0].map Instr.tableRow

/-- Bits `hi .. lo` of a word, as a number. -/
def wordBits (w : Word) (hi lo : Nat) : Nat := w.toNat / 2 ^ lo % 2 ^ (hi + 1 - lo)

/-- R85 class 1: the opcode is none of the nine the source names. -/
def illegalOpcode (w : Word) : Bool :=
  !([0b0000011, 0b0010011, 0b0010111, 0b0100011, 0b0110011, 0b0110111, 0b1100011, 0b1100111, 0b1101111].contains (wordBits w 6 0))

/-- R85 class 2: JALR with `inst[14:12]` other than 000. -/
def illegalJalr (w : Word) : Bool := wordBits w 6 0 == 0b1100111 && wordBits w 14 12 != 0

/-- R85 class 3: BRANCH with `inst[9:7]` 010 or 011. -/
def illegalBranch (w : Word) : Bool := wordBits w 6 0 == 0b1100011 && [0b010, 0b011].contains (wordBits w 9 7)

/-- R85 class 4: LOAD with `inst[14:12]` 011, 110 or 111. -/
def illegalLoad (w : Word) : Bool := wordBits w 6 0 == 0b0000011 && [0b011, 0b110, 0b111].contains (wordBits w 14 12)

/-- R85 class 5: STORE with `inst[9:7]` 011, 100, 101, 110 or 111. -/
def illegalStore (w : Word) : Bool :=
  wordBits w 6 0 == 0b0100011 && [0b011, 0b100, 0b101, 0b110, 0b111].contains (wordBits w 9 7)

/-- R85 class 6: an OP-IMM shift whose bits 31..25 are not a printed pattern. -/
def illegalShift (w : Word) : Bool :=
  wordBits w 6 0 == 0b0010011 &&
    ((wordBits w 14 12 == 0b001 && wordBits w 31 25 != 0b0000000) ||
     (wordBits w 14 12 == 0b101 && wordBits w 31 25 != 0b0000000 && wordBits w 31 25 != 0b0100000))

/-- R85 class 7: OP with another funct7, or with funct7 0100000 and a funct3 other than 000 and 101. -/
def illegalOp (w : Word) : Bool :=
  wordBits w 6 0 == 0b0110011 &&
    ((wordBits w 31 25 != 0b0000000 && wordBits w 31 25 != 0b0100000) ||
     (wordBits w 31 25 == 0b0100000 && wordBits w 14 12 != 0b000 && wordBits w 14 12 != 0b101))

/-- A word is well formed when it is in none of the seven classes of illegal words (R85). -/
def wordWellFormed (w : Word) : Bool :=
  !(illegalOpcode w || illegalJalr w || illegalBranch w || illegalLoad w || illegalStore w || illegalShift w || illegalOp w)

end Sys2Proof
end

