-- ==== Sys2Proof/Decode.lean ====
section
/-! DEFINITION. The decoder of 30_encoding.md R84, total on any bytes and rejecting by the name of the
class of R85; then the encoder, from the format tables R71 to R74 and R78; then the host's
`decodeTableWord`. -/

namespace Sys2Proof

/-! ### Fields of an instruction word (R71 to R74, R78, R83) -/

/-- `inst[6:0]` of every format. -/
def opcodeOf (w : Word) : BitVec 7 := w.extractLsb' 0 7

/-- `rd = inst[11:7]` of the R-, I- and U-type formats. -/
def rdOf (w : Word) : Reg := w.extractLsb' 7 5

/-- `funct3 = inst[14:12]` of the R- and I-type formats. -/
def funct3Of (w : Word) : BitVec 3 := w.extractLsb' 12 3

/-- `rs1 = inst[19:15]` of the R- and I-type formats. -/
def rs1Of (w : Word) : Reg := w.extractLsb' 15 5

/-- `rs2 = inst[24:20]` of the R-type format. -/
def rs2Of (w : Word) : Reg := w.extractLsb' 20 5

/-- `inst[31:25]`: funct7 of the R-type format, the upper pattern of a shift by a constant (R78). -/
def funct7Of (w : Word) : BitVec 7 := w.extractLsb' 25 7

/-- `shamt = inst[24:20]` (R78). -/
def shamtOf (w : Word) : Shamt := w.extractLsb' 20 5

/-- `imm[11:0] = inst[31:20]` of the I- and S-type formats. -/
def imm12Of (w : Word) : Imm12 := w.extractLsb' 20 12

/-- `imm[19:0] = inst[31:12]` of the U-type format. -/
def imm20Of (w : Word) : Imm20 := w.extractLsb' 12 20

/-- `funct3 = inst[9:7]` of this ISA's S-type format (R73). -/
def funct3OfS (w : Word) : BitVec 3 := w.extractLsb' 7 3

/-- `rs1 = inst[14:10]` of this ISA's S-type format (R73). -/
def rs1OfS (w : Word) : Reg := w.extractLsb' 10 5

/-- `rs2 = inst[19:15]` of this ISA's S-type format (R73). -/
def rs2OfS (w : Word) : Reg := w.extractLsb' 15 5

/-! ### The opcode map (R84) -/

def opLoad : BitVec 7 := 0b0000011
def opOpImm : BitVec 7 := 0b0010011
def opAuipc : BitVec 7 := 0b0010111
def opStore : BitVec 7 := 0b0100011
def opOp : BitVec 7 := 0b0110011
def opLui : BitVec 7 := 0b0110111
def opBranch : BitVec 7 := 0b1100011
def opJalr : BitVec 7 := 0b1100111
def opJal : BitVec 7 := 0b1101111

/-- Why the decoder rejects: the seven classes of illegal words of 30_encoding.md R85, and bytes that
end before an instruction does. -/
inductive Illegal where
  /-- fewer than four bytes were given; a fetch never does (R61) -/
  | truncated
  /-- class 1: an opcode that is not one of the nine -/
  | opcode
  /-- class 2: JALR with funct3 other than 000 -/
  | jalrFunct3
  /-- class 3: BRANCH with funct3 010 or 011 -/
  | branchFunct3
  /-- class 4: LOAD with funct3 011, 110 or 111 -/
  | loadFunct3
  /-- class 5: STORE with funct3 above 010 -/
  | storeFunct3
  /-- class 6: an OP-IMM shift with another pattern in bits 31..25 -/
  | shiftUpper
  /-- class 7: OP with a funct7 and funct3 that no row has -/
  | opFunct
  deriving DecidableEq, Repr

/-- LOAD words (R84). -/
def decodeLoad (w : Word) : Except Illegal Instr :=
  if funct3Of w = 0b000 then .ok (.lb (rdOf w) (rs1Of w) (imm12Of w))
  else if funct3Of w = 0b001 then .ok (.lh (rdOf w) (rs1Of w) (imm12Of w))
  else if funct3Of w = 0b010 then .ok (.lw (rdOf w) (rs1Of w) (imm12Of w))
  else if funct3Of w = 0b100 then .ok (.lbu (rdOf w) (rs1Of w) (imm12Of w))
  else if funct3Of w = 0b101 then .ok (.lhu (rdOf w) (rs1Of w) (imm12Of w))
  else .error .loadFunct3

/-- STORE words, S-type (R84, R73). -/
def decodeStore (w : Word) : Except Illegal Instr :=
  if funct3OfS w = 0b000 then .ok (.sb (rs2OfS w) (rs1OfS w) (imm12Of w))
  else if funct3OfS w = 0b001 then .ok (.sh (rs2OfS w) (rs1OfS w) (imm12Of w))
  else if funct3OfS w = 0b010 then .ok (.sw (rs2OfS w) (rs1OfS w) (imm12Of w))
  else .error .storeFunct3

/-- BRANCH words, S-type (R84, R73). -/
def decodeBranch (w : Word) : Except Illegal Instr :=
  if funct3OfS w = 0b000 then .ok (.beq (rs1OfS w) (rs2OfS w) (imm12Of w))
  else if funct3OfS w = 0b001 then .ok (.bne (rs1OfS w) (rs2OfS w) (imm12Of w))
  else if funct3OfS w = 0b100 then .ok (.blt (rs1OfS w) (rs2OfS w) (imm12Of w))
  else if funct3OfS w = 0b101 then .ok (.bge (rs1OfS w) (rs2OfS w) (imm12Of w))
  else if funct3OfS w = 0b110 then .ok (.bltu (rs1OfS w) (rs2OfS w) (imm12Of w))
  else if funct3OfS w = 0b111 then .ok (.bgeu (rs1OfS w) (rs2OfS w) (imm12Of w))
  else .error .branchFunct3

/-- OP-IMM words (R84, R78). -/
def decodeOpImm (w : Word) : Except Illegal Instr :=
  if funct3Of w = 0b000 then .ok (.addi (rdOf w) (rs1Of w) (imm12Of w))
  else if funct3Of w = 0b010 then .ok (.slti (rdOf w) (rs1Of w) (imm12Of w))
  else if funct3Of w = 0b011 then .ok (.sltiu (rdOf w) (rs1Of w) (imm12Of w))
  else if funct3Of w = 0b100 then .ok (.xori (rdOf w) (rs1Of w) (imm12Of w))
  else if funct3Of w = 0b110 then .ok (.ori (rdOf w) (rs1Of w) (imm12Of w))
  else if funct3Of w = 0b111 then .ok (.andi (rdOf w) (rs1Of w) (imm12Of w))
  else if funct3Of w = 0b001 then
    if funct7Of w = 0b0000000 then .ok (.slli (rdOf w) (rs1Of w) (shamtOf w)) else .error .shiftUpper
  else
    if funct7Of w = 0b0000000 then .ok (.srli (rdOf w) (rs1Of w) (shamtOf w))
    else if funct7Of w = 0b0100000 then .ok (.srai (rdOf w) (rs1Of w) (shamtOf w))
    else .error .shiftUpper

/-- OP words (R84). -/
def decodeOp (w : Word) : Except Illegal Instr :=
  if funct7Of w = 0b0000000 then
    if funct3Of w = 0b000 then .ok (.add (rdOf w) (rs1Of w) (rs2Of w))
    else if funct3Of w = 0b001 then .ok (.sll (rdOf w) (rs1Of w) (rs2Of w))
    else if funct3Of w = 0b010 then .ok (.slt (rdOf w) (rs1Of w) (rs2Of w))
    else if funct3Of w = 0b011 then .ok (.sltu (rdOf w) (rs1Of w) (rs2Of w))
    else if funct3Of w = 0b100 then .ok (.xor (rdOf w) (rs1Of w) (rs2Of w))
    else if funct3Of w = 0b101 then .ok (.srl (rdOf w) (rs1Of w) (rs2Of w))
    else if funct3Of w = 0b110 then .ok (.or (rdOf w) (rs1Of w) (rs2Of w))
    else .ok (.and (rdOf w) (rs1Of w) (rs2Of w))
  else if funct7Of w = 0b0100000 then
    if funct3Of w = 0b000 then .ok (.sub (rdOf w) (rs1Of w) (rs2Of w))
    else if funct3Of w = 0b101 then .ok (.sra (rdOf w) (rs1Of w) (rs2Of w))
    else .error .opFunct
  else .error .opFunct

/-- The decoder of R84: one of the 37 instructions with its fields, or the class of R85 the word is in. -/
def decode (w : Word) : Except Illegal Instr :=
  if opcodeOf w = opLui then .ok (.lui (rdOf w) (imm20Of w))
  else if opcodeOf w = opAuipc then .ok (.auipc (rdOf w) (imm20Of w))
  else if opcodeOf w = opJal then .ok (.jal (rdOf w) (imm20Of w))
  else if opcodeOf w = opJalr then
    if funct3Of w = 0b000 then .ok (.jalr (rdOf w) (rs1Of w) (imm12Of w)) else .error .jalrFunct3
  else if opcodeOf w = opBranch then decodeBranch w
  else if opcodeOf w = opLoad then decodeLoad w
  else if opcodeOf w = opStore then decodeStore w
  else if opcodeOf w = opOpImm then decodeOpImm w
  else if opcodeOf w = opOp then decodeOp w
  else .error .opcode

/-! ### Words and bytes (20_memory.md R43, R44, R61) -/

/-- The word whose bytes stand at four rising addresses (R43, R44): with `little` the first byte is
bits 7..0, with `big` it is bits 31..24. -/
def wordOfBytes (o : ByteOrder) (b0 b1 b2 b3 : Byte) : Word :=
  match o with
  | .little => b3 ++ b2 ++ b1 ++ b0
  | .big => b0 ++ b1 ++ b2 ++ b3

/-- The byte of a word that stands `i` addresses above its first (R60), `i` from 0 to 3. -/
def byteOfWord (o : ByteOrder) (w : Word) (i : Nat) : Byte :=
  match o with
  | .little => w.extractLsb' (8 * i) 8
  | .big => w.extractLsb' (8 * (3 - i)) 8

/-- The four bytes of a word in the order of their addresses. -/
def bytesOfWord (o : ByteOrder) (w : Word) : List Byte :=
  [byteOfWord o w 0, byteOfWord o w 1, byteOfWord o w 2, byteOfWord o w 3]

/-- Decode the instruction at the front of a list of bytes, with the bytes after it (R70: four bytes each). -/
def decodeBytes (o : ByteOrder) (bs : List Byte) : Except Illegal (Instr × List Byte) :=
  match bs with
  | b0 :: b1 :: b2 :: b3 :: rest =>
    match decode (wordOfBytes o b0 b1 b2 b3) with
    | .ok i => .ok (i, rest)
    | .error e => .error e
  | _ => .error .truncated

/-! ### The encoder -/

/-- R-type layout (R71). -/
def packR (funct7 : BitVec 7) (rs2 rs1 : Reg) (funct3 : BitVec 3) (rd : Reg) (op : BitVec 7) : Word :=
  funct7 ++ rs2 ++ rs1 ++ funct3 ++ rd ++ op

/-- I-type layout (R72). -/
def packI (imm : Imm12) (rs1 : Reg) (funct3 : BitVec 3) (rd : Reg) (op : BitVec 7) : Word :=
  imm ++ rs1 ++ funct3 ++ rd ++ op

/-- S-type layout of this ISA (R73). -/
def packS (imm : Imm12) (rs2 rs1 : Reg) (funct3 : BitVec 3) (op : BitVec 7) : Word :=
  imm ++ rs2 ++ rs1 ++ funct3 ++ op

/-- U-type layout (R74). -/
def packU (imm : Imm20) (rd : Reg) (op : BitVec 7) : Word :=
  imm ++ rd ++ op

/-- The word of an instruction, from the format tables R71 to R74, the shift form R78 and the fixed
bits of R84. A shift by a constant has the R-type's layout, shamt standing where rs2 does. -/
def encode : Instr → Word
  | .addi rd rs1 imm => packI imm rs1 0b000 rd opOpImm
  | .slti rd rs1 imm => packI imm rs1 0b010 rd opOpImm
  | .sltiu rd rs1 imm => packI imm rs1 0b011 rd opOpImm
  | .andi rd rs1 imm => packI imm rs1 0b111 rd opOpImm
  | .ori rd rs1 imm => packI imm rs1 0b110 rd opOpImm
  | .xori rd rs1 imm => packI imm rs1 0b100 rd opOpImm
  | .slli rd rs1 shamt => packR 0b0000000 shamt rs1 0b001 rd opOpImm
  | .srli rd rs1 shamt => packR 0b0000000 shamt rs1 0b101 rd opOpImm
  | .srai rd rs1 shamt => packR 0b0100000 shamt rs1 0b101 rd opOpImm
  | .lui rd imm => packU imm rd opLui
  | .auipc rd imm => packU imm rd opAuipc
  | .add rd rs1 rs2 => packR 0b0000000 rs2 rs1 0b000 rd opOp
  | .slt rd rs1 rs2 => packR 0b0000000 rs2 rs1 0b010 rd opOp
  | .sltu rd rs1 rs2 => packR 0b0000000 rs2 rs1 0b011 rd opOp
  | .and rd rs1 rs2 => packR 0b0000000 rs2 rs1 0b111 rd opOp
  | .or rd rs1 rs2 => packR 0b0000000 rs2 rs1 0b110 rd opOp
  | .xor rd rs1 rs2 => packR 0b0000000 rs2 rs1 0b100 rd opOp
  | .sll rd rs1 rs2 => packR 0b0000000 rs2 rs1 0b001 rd opOp
  | .srl rd rs1 rs2 => packR 0b0000000 rs2 rs1 0b101 rd opOp
  | .sub rd rs1 rs2 => packR 0b0100000 rs2 rs1 0b000 rd opOp
  | .sra rd rs1 rs2 => packR 0b0100000 rs2 rs1 0b101 rd opOp
  | .jal rd imm => packU imm rd opJal
  | .jalr rd rs1 imm => packI imm rs1 0b000 rd opJalr
  | .beq rs1 rs2 imm => packS imm rs2 rs1 0b000 opBranch
  | .bne rs1 rs2 imm => packS imm rs2 rs1 0b001 opBranch
  | .blt rs1 rs2 imm => packS imm rs2 rs1 0b100 opBranch
  | .bltu rs1 rs2 imm => packS imm rs2 rs1 0b110 opBranch
  | .bge rs1 rs2 imm => packS imm rs2 rs1 0b101 opBranch
  | .bgeu rs1 rs2 imm => packS imm rs2 rs1 0b111 opBranch
  | .lw rd rs1 imm => packI imm rs1 0b010 rd opLoad
  | .lh rd rs1 imm => packI imm rs1 0b001 rd opLoad
  | .lhu rd rs1 imm => packI imm rs1 0b101 rd opLoad
  | .lb rd rs1 imm => packI imm rs1 0b000 rd opLoad
  | .lbu rd rs1 imm => packI imm rs1 0b100 rd opLoad
  | .sw rs2 rs1 imm => packS imm rs2 rs1 0b010 opStore
  | .sh rs2 rs1 imm => packS imm rs2 rs1 0b001 opStore
  | .sb rs2 rs1 imm => packS imm rs2 rs1 0b000 opStore

/-! ### The host's question -/

/-- The word of the low `nbits` bits of `w`, every bit above them 0. -/
def tableWord (nbits w : Nat) : Word := BitVec.ofNat 32 (w % 2 ^ nbits)

/-- The instruction the decoder reads from an instruction whose bits are `w`, laid out in memory in the
default byte order (00_scope.md R7). -/
def decodeTableWord (nbits w : Nat) : Option Instr :=
  match decodeBytes .little (bytesOfWord .little (tableWord nbits w)) with
  | .ok (i, _) => some i
  | .error _ => none

end Sys2Proof
end

