-- ==== Sys2Proof/Machine/State.lean ====
section
/-! DEFINITION. The state of the machine (10_state.md R20 to R35) as plain data, the reasons a step can
stop, and the machine right after reset. -/

namespace Sys2Proof.Machine

/-- The seven synchronous exceptions and no others (60_exceptions.md R181). -/
inductive Cause where
  /-- a jump or taken branch to a target that is not a multiple of 4, or a step at such a pc -/
  | instructionAddressMisaligned
  /-- a fetch that touches a byte that is not executable -/
  | instructionAccessFault
  /-- a word that is not one of the 37 instructions -/
  | illegalInstruction
  /-- LW, LH or LHU at an address that is not a multiple of its size -/
  | loadAddressMisaligned
  /-- a load that touches a byte that is not readable -/
  | loadAccessFault
  /-- SW or SH at an address that is not a multiple of its size -/
  | storeAddressMisaligned
  /-- a store that touches a byte that is not writable -/
  | storeAccessFault
  deriving DecidableEq, Repr

/-- What `raise E(info)` carries (R180): the exception and its datum (R181). -/
structure Raised where
  cause : Cause
  info : Word
  deriving DecidableEq, Repr

/-- The run status (10_state.md R34). -/
inductive RunStatus where
  | running
  /-- final: pc was `HALT_PC` at the start of a step (70_reset_and_hazards.md R205) -/
  | ended
  /-- an instruction or a step raised (60_exceptions.md R180); never a final state -/
  | faulted (cause : Cause) (info : Word)
  deriving DecidableEq, Repr

/-- The bytes of memory that differ from `Config.unlistedByte`, by rising address. -/
abbrev Memory := List Host.Cell

/-- Everything the spec gives the machine. `x` holds x1 .. x31 (x0 has no storage, R21). `byteOrder`,
`map` and `haltPc` are launch parameters (00_scope.md R7): a step reads them and never writes them. -/
structure State where
  /-- x1 .. x31, `x[n - 1]` being register n (R20, R22) -/
  x : Vector Word 31
  /-- the address of the current instruction (R25) -/
  pc : Word
  /-- the memory (R32), in the canonical form `Memory.wf` -/
  mem : Memory
  /-- the run status (R34) -/
  status : RunStatus
  /-- `BYTE_ORDER` (20_memory.md R43) -/
  byteOrder : ByteOrder
  /-- `readable`, `writable` and `executable` (20_memory.md R51) -/
  map : MemMap
  /-- `HALT_PC` (70_reset_and_hazards.md R205) -/
  haltPc : Word
  deriving DecidableEq, Repr

/-- Why a step stops with a fault. -/
inductive Fault where
  /-- Raised by `step` alone, in a state whose status is `faulted` already: no step is taken from such
  a state (10_state.md R34, 60_exceptions.md R180 (c)). It repeats the exception the state holds. Safe:
  the spec gives such a state no next state. An exception itself is no fault of this type but a next
  state whose status is `faulted`. -/
  | stopped (cause : Cause) (info : Word)
  deriving DecidableEq, Repr

/-- Why something is refused. -/
inductive Refusal where
  /-- An instruction without a meaning yet, refused by name in `exec`. Safe. No arm answers it. -/
  | notModelled (mnemonic : String)
  /-- Raised by `launch` alone: the launch has a byte both writable and executable, or a byte readable or
  executable without an initial byte, and such a launch "is refused by the model" (20_memory.md R52). Safe. -/
  | launchNotAdmitted
  deriving DecidableEq, Repr

/-- The machine right after reset: the launch of 10_state.md R35 with the parameter values that
notes/assumptions 1 to 5 name, nothing listed in memory, and the status `running`. -/
def State.reset : State where
  x := Vector.replicate 31 Config.resetReg
  pc := Config.resetPc
  mem := []
  status := .running
  byteOrder := Config.resetByteOrder
  map := Config.resetMap
  haltPc := Config.resetHaltPc

end Sys2Proof.Machine
end

