-- ==== Sys2Proof/Machine/Ops.lean ====
section
/-! DEFINITION. The named operations every meaning is written with (00_scope.md R10): registers, the
memory map, memory, `MemRead`, `MemWrite`, `Fetch`, `raise`, and the ends of an instruction. There is
no return from an exception beside `raise`: 60_exceptions.md R185 says none exists. -/

namespace Sys2Proof.Machine

/-- What every meaning and the step answer. -/
abbrev Result := Host.Outcome State Fault Refusal

/-! ### Registers -/

/-- `x[r]` (00_scope.md R10): x0 reads as `0^32` (10_state.md R21). -/
def readReg (s : State) (r : Reg) : Word :=
  if h : r = 0#5 then 0#32 else s.x[r.toNat - 1]'(by have := r.isLt; omega)

/-- `x[r] <- v` (R10): a write to x0 has no effect (R21). -/
def writeReg (s : State) (r : Reg) (v : Word) : State :=
  if h : r = 0#5 then s else { s with x := s.x.set (r.toNat - 1) v (by have := r.isLt; omega) }

/-! ### The memory map (20_memory.md R51, R52) -/

/-- Whether an address is one of `base .. base + size - 1`, never past 0xFFFFFFFF. -/
def spanHolds (base : Word) (size : Nat) (a : Word) : Bool :=
  decide (base.toNat ≤ a.toNat) && decide (a.toNat < base.toNat + size)

/-- Whether a region holds an address. -/
def regionHolds (g : Region) (a : Word) : Bool := spanHolds g.base g.size a

/-- The region that decides an address: the first that holds it. -/
def regionAt (m : MemMap) (a : Word) : Option Region := m.find? (regionHolds · a)

/-- `readable(a)` (R51). -/
def readable (m : MemMap) (a : Word) : Bool := (regionAt m a).any (·.readable)

/-- `writable(a)` (R51). -/
def writable (m : MemMap) (a : Word) : Bool := (regionAt m a).any (·.writable)

/-- `executable(a)` (R51). -/
def executable (m : MemMap) (a : Word) : Bool := (regionAt m a).any (·.executable)

/-! ### Memory as a list of bytes (10_state.md R32) -/

/-- The byte at an address. -/
def memByte : Memory → Nat → Byte
  | [], _ => Config.unlistedByte
  | (k, c) :: m, a => if k = a then c else memByte m a

/-- The memory without an entry for the address. -/
def memErase : Memory → Nat → Memory
  | [], _ => []
  | (k, c) :: m, a => if k = a then memErase m a else (k, c) :: memErase m a

/-- The memory with an entry put before the first entry of a higher address. -/
def memInsert : Memory → Nat → Byte → Memory
  | [], a, b => [(a, b)]
  | (k, c) :: m, a, b => if a < k then (a, b) :: (k, c) :: m else (k, c) :: memInsert m a b

/-- `mem[a] <- b`, keeping the canonical form: the byte an unlisted address reads as is not listed. -/
def memPut (m : Memory) (a : Nat) (b : Byte) : Memory :=
  if b = Config.unlistedByte then memErase m a else memInsert (memErase m a) a b

/-- The canonical form from an address on: addresses strictly rising and inside the address space
(20_memory.md R40), and no entry equal to what an unlisted address reads as. -/
def memWfFrom : Nat → Memory → Bool
  | _, [] => true
  | lo, (k, c) :: m => decide (lo ≤ k) && decide (k < 2 ^ 32) && decide (c ≠ Config.unlistedByte) && memWfFrom (k + 1) m

/-- The canonical form of memory. -/
def Memory.wf (m : Memory) : Bool := memWfFrom 0 m

/-- The byte of memory at a 32-bit address (20_memory.md R40). -/
def byteAt (s : State) (a : Word) : Byte := memByte s.mem a.toNat

/-! ### Accesses (20_memory.md R48, R59 to R61) -/

/-- The size of a data access: 1, 2 or 4 bytes (R48). -/
inductive Width where
  | byte
  | half
  | word
  deriving DecidableEq, Repr

/-- How many bytes an access touches. -/
def Width.bytes : Width → Nat
  | .byte => 1
  | .half => 2
  | .word => 4

/-- How many bits an access moves. -/
abbrev Width.bits : Width → Nat
  | .byte => 8
  | .half => 16
  | .word => 32

/-- The address of byte `i` of an access at `a`. -/
def addrPlus (a : Word) (i : Nat) : Word := a + BitVec.ofNat 32 i

/-- Whether all `n` bytes of an access at `a` pass a check of the map (R52). -/
def allBytes (n : Nat) (a : Word) (ok : Word → Bool) : Bool :=
  (List.range n).all fun i => ok (addrPlus a i)

/-- Whether an access of `n` bytes at `a` is not aligned (R46). -/
def misaligned (n : Nat) (a : Word) : Bool := decide (a.toNat % n ≠ 0)

/-- The value of the bytes `b 0, b 1, ...` of an access, in a byte order (R43, R59). -/
def assemble (o : ByteOrder) (b : Nat → Byte) : (w : Width) → BitVec w.bits
  | .byte => b 0
  | .half => match o with
    | .little => b 1 ++ b 0
    | .big => b 0 ++ b 1
  | .word => wordOfBytes o (b 0) (b 1) (b 2) (b 3)

/-- Byte `i` of a value stored at an access of width `w`, in a byte order (R43, R60). -/
def storedByte (o : ByteOrder) (w : Width) (v : BitVec w.bits) (i : Nat) : Byte :=
  match o with
  | .little => v.extractLsb' (8 * i) 8
  | .big => v.extractLsb' (8 * (w.bytes - 1 - i)) 8

/-- `MemRead(addr, n)` (R59): misalignment is checked before the map. -/
def memRead (s : State) (a : Word) (w : Width) : Except Raised (BitVec w.bits) :=
  if misaligned w.bytes a then .error ⟨.loadAddressMisaligned, a⟩
  else if allBytes w.bytes a (readable s.map) then .ok (assemble s.byteOrder (fun i => byteAt s (addrPlus a i)) w)
  else .error ⟨.loadAccessFault, a⟩

/-- The memory after bytes `b 0 .. b (n-1)` are put at `a, a+1, ...`. -/
def putBytes (m : Memory) (a : Word) (b : Nat → Byte) : Nat → Memory
  | 0 => m
  | n + 1 => memPut (putBytes m a b n) (addrPlus a n).toNat (b n)

/-- `MemWrite(addr, n, v)` (R60): every check comes before any byte is written. -/
def memWrite (s : State) (a : Word) (w : Width) (v : BitVec w.bits) : Except Raised State :=
  if misaligned w.bytes a then .error ⟨.storeAddressMisaligned, a⟩
  else if allBytes w.bytes a (writable s.map) then
    .ok { s with mem := putBytes s.mem a (storedByte s.byteOrder w v) w.bytes }
  else .error ⟨.storeAccessFault, a⟩

/-- `Fetch(addr)` (R61), in the same byte order as data (R44). -/
def fetch (s : State) (a : Word) : Except Raised Word :=
  if allBytes 4 a (executable s.map) then .ok (assemble s.byteOrder (fun i => byteAt s (addrPlus a i)) .word)
  else .error ⟨.instructionAccessFault, a⟩

/-! ### Taking an exception, and the ends of an instruction -/

/-- `raise E(info)` (60_exceptions.md R180): x, pc and memory stay as they are, and the run status
becomes `faulted(E, info)`. There is no handler to go to and nothing is saved. -/
def raise (e : Raised) (s : State) : Result := .next { s with status := .faulted e.cause e.info }

/-- The state at the next instruction in memory: `pc + 4` modulo 2^32 (10_state.md R26, R28). -/
def advance (s : State) : State := { s with pc := s.pc + 4 }

/-- An instruction that writes a register and goes on (R100, R120). -/
def writeAndAdvance (rd : Reg) (v : Word) (s : State) : Result := .next (advance (writeReg s rd v))

/-- The state at the instruction at `t` (10_state.md R25). -/
def goTo (s : State) (t : Word) : State := { s with pc := t }

/-- The end of a jump or taken branch at target `t` (42_control_transfer.md R140): a target that is not
a multiple of 4 raises and nothing is written; else `s'`, the state with the link written, goes on at t. -/
def transfer (t : Word) (s s' : State) : Result :=
  if misaligned 4 t then raise ⟨.instructionAddressMisaligned, t⟩ s else .next (goTo s' t)

end Sys2Proof.Machine
end

