-- ==== Sys2Proof/Machine/Operands.lean ====
section
/-! DEFINITION. The operand forms (30_encoding.md R77 to R83): how each immediate field becomes a
32-bit operand, and the one addressing mode (43_load_store.md R160). -/

namespace Sys2Proof.Machine

/-- The I-immediate, and the S-immediate of stores: `sext_32(inst[31:20])`, not scaled (R77, R79). -/
def immOperand (imm : Imm12) : Word := imm.signExtend 32

/-- The byte offset of a branch: `sext_32(inst[31:20]) << 1` (R80). -/
def branchOffset (imm : Imm12) : Word := imm.signExtend 32 <<< 1

/-- The U-immediate of LUI and AUIPC: `inst[31:12] ++ 0^12` (R81). -/
def upperOperand (imm : Imm20) : Word := imm ++ (0 : BitVec 12)

/-- The byte offset of JAL: `sext_32(inst[31:12]) << 1` (R82). -/
def jalOffset (imm : Imm20) : Word := imm.signExtend 32 <<< 1

/-- The count of a shift by a constant, 0 .. 31 (R78). -/
def shiftByConstant (shamt : Shamt) : Nat := shamt.toNat

/-- The count of a shift by a register: `unsigned(x[rs2][4:0])`, bits 31..5 ignored
(41_integer_register_register.md section 4). -/
def shiftByRegister (v : Word) : Nat := (v.extractLsb' 0 5).toNat

/-- The effective address of a load or store: `x[rs1] + sext_32(imm12)` modulo 2^32 (R160, R62). -/
def effectiveAddress (s : State) (rs1 : Reg) (imm : Imm12) : Word := readReg s rs1 + immOperand imm

/-- The target of JAL (R141). -/
def jalTarget (s : State) (imm : Imm20) : Word := s.pc + jalOffset imm

/-- The target of JALR: `(x[rs1] + imm) & 0xFFFFFFFE` (R142). -/
def jalrTarget (s : State) (rs1 : Reg) (imm : Imm12) : Word := (readReg s rs1 + immOperand imm) &&& 0xFFFFFFFE#32

/-- The target of a taken branch (R143). -/
def branchTarget (s : State) (imm : Imm12) : Word := s.pc + branchOffset imm

end Sys2Proof.Machine
end

