-- ==== Sys2Proof/Machine/Flags.lean ====
section
/-! DEFINITION. This hardware has no flags and no condition codes (10_state.md R29): comparisons write 0
or 1 to a register, and branches compare two registers. Here are the comparisons (00_scope.md R9). -/

namespace Sys2Proof.Machine

/-- `a <s b`: `signed(a) < signed(b)` (R9). -/
def ltSigned (a b : Word) : Bool := decide (a.toInt < b.toInt)

/-- `a <u b`: `unsigned(a) < unsigned(b)` (R9). -/
def ltUnsigned (a b : Word) : Bool := decide (a.toNat < b.toNat)

/-- `c ? 0x00000001 : 0x00000000`, what the set-less-than instructions write (R102, R103, R122, R123). -/
def boolWord (c : Bool) : Word := if c then 1 else 0

end Sys2Proof.Machine
end

