-- ==== Sys2Proof/Machine/Control.lean ====
section
/-! DEFINITION. The control transfer instructions (42_control_transfer.md R140 to R151). -/

namespace Sys2Proof.Machine

/-- JAL and JALR after their target is computed: the link `pc + 4` is written to rd and the next
instruction is at t, unless t is misaligned (R140, R141, R142). -/
def jumpAndLink (rd : Reg) (t : Word) (s : State) : Result := transfer t s (writeReg s rd (s.pc + 4))

/-- What the six branches share (R143): a branch that is not taken only advances, whatever its offset. -/
def branchIf (taken : Bool) (imm : Imm12) (s : State) : Result :=
  if taken then transfer (branchTarget s imm) s s else .next (advance s)

/-- JAL (R141). -/
def execJal (rd : Reg) (imm : Imm20) (s : State) : Result := jumpAndLink rd (jalTarget s imm) s

/-- JALR (R142): the target is computed from the old x[rs1] (10_state.md R24). -/
def execJalr (rd rs1 : Reg) (imm : Imm12) (s : State) : Result := jumpAndLink rd (jalrTarget s rs1 imm) s

/-- BEQ (R144): taken if `x[rs1] = x[rs2]`. -/
def execBeq (rs1 rs2 : Reg) (imm : Imm12) (s : State) : Result :=
  branchIf (readReg s rs1 == readReg s rs2) imm s

/-- BNE (R145): taken if `x[rs1] != x[rs2]`. -/
def execBne (rs1 rs2 : Reg) (imm : Imm12) (s : State) : Result :=
  branchIf (readReg s rs1 != readReg s rs2) imm s

/-- BLT (R146): taken if `x[rs1] <s x[rs2]`. -/
def execBlt (rs1 rs2 : Reg) (imm : Imm12) (s : State) : Result :=
  branchIf (ltSigned (readReg s rs1) (readReg s rs2)) imm s

/-- BLTU (R147): taken if `x[rs1] <u x[rs2]`. -/
def execBltu (rs1 rs2 : Reg) (imm : Imm12) (s : State) : Result :=
  branchIf (ltUnsigned (readReg s rs1) (readReg s rs2)) imm s

/-- BGE (R148): taken if not `x[rs1] <s x[rs2]`. -/
def execBge (rs1 rs2 : Reg) (imm : Imm12) (s : State) : Result :=
  branchIf (!ltSigned (readReg s rs1) (readReg s rs2)) imm s

/-- BGEU (R149): taken if not `x[rs1] <u x[rs2]`. -/
def execBgeu (rs1 rs2 : Reg) (imm : Imm12) (s : State) : Result :=
  branchIf (!ltUnsigned (readReg s rs1) (readReg s rs2)) imm s

end Sys2Proof.Machine
end

