-- ==== Sys2Proof/Machine/IntImm.lean ====
section
/-! DEFINITION. The register-immediate instructions (40_integer_register_immediate.md R100 to R111). -/

namespace Sys2Proof.Machine

/-- ADDI (R101): `x[rd] <- x[rs1] + imm`, overflow ignored. -/
def execAddi (rd rs1 : Reg) (imm : Imm12) (s : State) : Result :=
  writeAndAdvance rd (readReg s rs1 + immOperand imm) s

/-- SLTI (R102): `x[rd] <- (x[rs1] <s imm) ? 1 : 0`. -/
def execSlti (rd rs1 : Reg) (imm : Imm12) (s : State) : Result :=
  writeAndAdvance rd (boolWord (ltSigned (readReg s rs1) (immOperand imm))) s

/-- SLTIU (R103): `x[rd] <- (x[rs1] <u imm) ? 1 : 0`, the immediate sign-extended first. -/
def execSltiu (rd rs1 : Reg) (imm : Imm12) (s : State) : Result :=
  writeAndAdvance rd (boolWord (ltUnsigned (readReg s rs1) (immOperand imm))) s

/-- ANDI (R104): `x[rd] <- x[rs1] & imm`. -/
def execAndi (rd rs1 : Reg) (imm : Imm12) (s : State) : Result :=
  writeAndAdvance rd (readReg s rs1 &&& immOperand imm) s

/-- ORI (R105): `x[rd] <- x[rs1] | imm`. -/
def execOri (rd rs1 : Reg) (imm : Imm12) (s : State) : Result :=
  writeAndAdvance rd (readReg s rs1 ||| immOperand imm) s

/-- XORI (R106): `x[rd] <- x[rs1] ^ imm`. -/
def execXori (rd rs1 : Reg) (imm : Imm12) (s : State) : Result :=
  writeAndAdvance rd (readReg s rs1 ^^^ immOperand imm) s

/-- SLLI (R107): `x[rd] <- x[rs1] << shamt`. -/
def execSlli (rd rs1 : Reg) (shamt : Shamt) (s : State) : Result :=
  writeAndAdvance rd (readReg s rs1 <<< shiftByConstant shamt) s

/-- SRLI (R108): `x[rd] <- x[rs1] >>u shamt`. -/
def execSrli (rd rs1 : Reg) (shamt : Shamt) (s : State) : Result :=
  writeAndAdvance rd (readReg s rs1 >>> shiftByConstant shamt) s

/-- SRAI (R109): `x[rd] <- x[rs1] >>s shamt`. -/
def execSrai (rd rs1 : Reg) (shamt : Shamt) (s : State) : Result :=
  writeAndAdvance rd ((readReg s rs1).sshiftRight (shiftByConstant shamt)) s

/-- LUI (R110): `x[rd] <- imm20 ++ 0^12`. -/
def execLui (rd : Reg) (imm : Imm20) (s : State) : Result :=
  writeAndAdvance rd (upperOperand imm) s

/-- AUIPC (R111): `x[rd] <- pc + (imm20 ++ 0^12)`, pc being the address of the AUIPC itself. -/
def execAuipc (rd : Reg) (imm : Imm20) (s : State) : Result :=
  writeAndAdvance rd (s.pc + upperOperand imm) s

end Sys2Proof.Machine
end

