-- ==== Sys2Proof/Machine/IntReg.lean ====
section
/-! DEFINITION. The register-register instructions (41_integer_register_register.md R120 to R131). -/

namespace Sys2Proof.Machine

/-- ADD (R121): `x[rd] <- x[rs1] + x[rs2]`, overflow ignored. -/
def execAdd (rd rs1 rs2 : Reg) (s : State) : Result :=
  writeAndAdvance rd (readReg s rs1 + readReg s rs2) s

/-- SLT (R122): `x[rd] <- (x[rs1] <s x[rs2]) ? 1 : 0`. -/
def execSlt (rd rs1 rs2 : Reg) (s : State) : Result :=
  writeAndAdvance rd (boolWord (ltSigned (readReg s rs1) (readReg s rs2))) s

/-- SLTU (R123): `x[rd] <- (x[rs1] <u x[rs2]) ? 1 : 0`. -/
def execSltu (rd rs1 rs2 : Reg) (s : State) : Result :=
  writeAndAdvance rd (boolWord (ltUnsigned (readReg s rs1) (readReg s rs2))) s

/-- AND (R124): `x[rd] <- x[rs1] & x[rs2]`. -/
def execAnd (rd rs1 rs2 : Reg) (s : State) : Result :=
  writeAndAdvance rd (readReg s rs1 &&& readReg s rs2) s

/-- OR (R125): `x[rd] <- x[rs1] | x[rs2]`. -/
def execOr (rd rs1 rs2 : Reg) (s : State) : Result :=
  writeAndAdvance rd (readReg s rs1 ||| readReg s rs2) s

/-- XOR (R126): `x[rd] <- x[rs1] ^ x[rs2]`. -/
def execXor (rd rs1 rs2 : Reg) (s : State) : Result :=
  writeAndAdvance rd (readReg s rs1 ^^^ readReg s rs2) s

/-- SLL (R127): `x[rd] <- x[rs1] << x[rs2][4:0]`. -/
def execSll (rd rs1 rs2 : Reg) (s : State) : Result :=
  writeAndAdvance rd (readReg s rs1 <<< shiftByRegister (readReg s rs2)) s

/-- SRL (R128): `x[rd] <- x[rs1] >>u x[rs2][4:0]`. -/
def execSrl (rd rs1 rs2 : Reg) (s : State) : Result :=
  writeAndAdvance rd (readReg s rs1 >>> shiftByRegister (readReg s rs2)) s

/-- SUB (R129): `x[rd] <- x[rs1] - x[rs2]`, overflow ignored. -/
def execSub (rd rs1 rs2 : Reg) (s : State) : Result :=
  writeAndAdvance rd (readReg s rs1 - readReg s rs2) s

/-- SRA (R130): `x[rd] <- x[rs1] >>s x[rs2][4:0]`. -/
def execSra (rd rs1 rs2 : Reg) (s : State) : Result :=
  writeAndAdvance rd ((readReg s rs1).sshiftRight (shiftByRegister (readReg s rs2))) s

end Sys2Proof.Machine
end

