-- ==== Sys2Proof/Machine/LoadStore.lean ====
section
/-! DEFINITION. The load and store instructions (43_load_store.md R160 to R170). -/

namespace Sys2Proof.Machine

/-- What the five loads share (R160, R169, R170): read at the effective address, extend, write x[rd]. A
load to x0 still reads memory and can raise (30_encoding.md R86). -/
def loadInto (w : Width) (extend : BitVec w.bits → Word) (rd rs1 : Reg) (imm : Imm12) (s : State) : Result :=
  match memRead s (effectiveAddress s rs1 imm) w with
  | .ok v => writeAndAdvance rd (extend v) s
  | .error e => raise e s

/-- What the three stores share (R160, R169, R170): write the low bits of x[rs2] at the effective address. -/
def storeFrom (w : Width) (rs2 rs1 : Reg) (imm : Imm12) (s : State) : Result :=
  match memWrite s (effectiveAddress s rs1 imm) w ((readReg s rs2).setWidth w.bits) with
  | .ok s' => .next (advance s')
  | .error e => raise e s

/-- LW (R161): a 32-bit value, as it is. -/
def execLw (rd rs1 : Reg) (imm : Imm12) (s : State) : Result := loadInto .word (fun v => v) rd rs1 imm s

/-- LH (R162): a 16-bit value, sign-extended. -/
def execLh (rd rs1 : Reg) (imm : Imm12) (s : State) : Result := loadInto .half (fun v => v.signExtend 32) rd rs1 imm s

/-- LHU (R163): a 16-bit value, zero-extended. -/
def execLhu (rd rs1 : Reg) (imm : Imm12) (s : State) : Result := loadInto .half (fun v => v.setWidth 32) rd rs1 imm s

/-- LB (R164): an 8-bit value, sign-extended. -/
def execLb (rd rs1 : Reg) (imm : Imm12) (s : State) : Result := loadInto .byte (fun v => v.signExtend 32) rd rs1 imm s

/-- LBU (R165): an 8-bit value, zero-extended. -/
def execLbu (rd rs1 : Reg) (imm : Imm12) (s : State) : Result := loadInto .byte (fun v => v.setWidth 32) rd rs1 imm s

/-- SW (R166): all of x[rs2]. -/
def execSw (rs2 rs1 : Reg) (imm : Imm12) (s : State) : Result := storeFrom .word rs2 rs1 imm s

/-- SH (R167): `x[rs2][15:0]`. -/
def execSh (rs2 rs1 : Reg) (imm : Imm12) (s : State) : Result := storeFrom .half rs2 rs1 imm s

/-- SB (R168): `x[rs2][7:0]`. -/
def execSb (rs2 rs1 : Reg) (imm : Imm12) (s : State) : Result := storeFrom .byte rs2 rs1 imm s

end Sys2Proof.Machine
end

