-- ==== Sys2Proof/Machine/Fetch.lean ====
section
/-! DEFINITION. The part of a step before an instruction executes (10_state.md R36, items 1 to 4), and
the placing of one instruction where a step fetches it. -/

namespace Sys2Proof.Machine

/-- Items 2 to 4 of the step (R36), in the order 60_exceptions.md R183 fixes: the pc's alignment, the
fetch, the decoding. -/
def fetchInstr (s : State) : Except Raised Instr :=
  if misaligned 4 s.pc then .error ⟨.instructionAddressMisaligned, s.pc⟩
  else match fetch s s.pc with
    | .error e => .error e
    | .ok w => match decode w with
      | .ok i => .ok i
      | .error _ => .error ⟨.illegalInstruction, w⟩

/-- Item 1 of the step (R36): the run ends where pc is `HALT_PC` (70_reset_and_hazards.md R205). -/
def atHalt (s : State) : Bool := s.pc == s.haltPc

/-- The state of an ended run: only the run status changes (R205). -/
def endRun (s : State) : State := { s with status := .ended }

/-- Where `placeWord` puts an instruction: the pc, its low two bits cleared (10_state.md R27). -/
def placeAddr (s : State) : Word := s.pc &&& 0xFFFFFFFC#32

/-- The map entry that makes one byte of a placed program executable and not writable (20_memory.md
R52), its readability as it was. -/
def codeByte (m : MemMap) (a : Word) : Region :=
  { base := a, size := 1, readable := readable m a, writable := false, executable := true }

/-- The state with the word `w` loaded as the program at `placeAddr`: its four bytes in memory in the
state's byte order, mapped as code; the pc there; the run running; and `HALT_PC`, where it was that
address, moved to a misaligned value (70_reset_and_hazards.md R205) so that the step does not end. -/
def placeWord (s : State) (w : Word) : State :=
  let a := placeAddr s
  { s with
    pc := a
    status := .running
    mem := putBytes s.mem a (storedByte s.byteOrder .word w) 4
    map := [codeByte s.map (addrPlus a 0), codeByte s.map (addrPlus a 1), codeByte s.map (addrPlus a 2),
      codeByte s.map (addrPlus a 3)] ++ s.map
    haltPc := if s.haltPc = a then a + 1 else s.haltPc }

end Sys2Proof.Machine
end

