-- ==== Sys2Proof/Machine/Launch.lean ====
section
/-! DEFINITION. The launch, the one kind of reset (70_reset_and_hazards.md R200): the host's parameters
(00_scope.md R7) become the first state, or the launch is refused (20_memory.md R52). -/

namespace Sys2Proof.Machine

/-- A stretch of bytes whose initial byte is `Config.unlistedByte`: the addresses `base .. base + size - 1`,
never past 0xFFFFFFFF. -/
structure Blank where
  base : Word
  size : Nat
  deriving DecidableEq, Repr

/-- The launch parameters (00_scope.md R7). `INIT_MEM` is given by `initMem`, byte by byte, and by the blank
stretches; a byte in neither has no initial byte (notes/assumptions/3.md). -/
structure Launch where
  byteOrder : ByteOrder
  map : MemMap
  initMem : List (Word × Byte)
  blank : List Blank
  entryPc : Word
  initX : Vector Word 31
  haltPc : Word
  deriving DecidableEq, Repr

/-- The byte a list gives an address: of two entries for one address the first counts. -/
def initCell (cells : List (Word × Byte)) (a : Word) : Option Byte :=
  match cells with
  | [] => none
  | (k, b) :: rest => if k = a then some b else initCell rest a

/-- `INIT_MEM(a)` (R7), where the launch gives the address an initial byte: `initMem` first, then the blanks. -/
def initByte (p : Launch) (a : Word) : Option Byte :=
  match initCell p.initMem a with
  | some b => some b
  | none => if p.blank.any (fun g => spanHolds g.base g.size a) then some Config.unlistedByte else none

/-- The memory that holds `INIT_MEM`: a blank byte needs no entry. -/
def initMemory (cells : List (Word × Byte)) : Memory :=
  match cells with
  | [] => []
  | (k, b) :: rest => memPut (initMemory rest) k.toNat b

/-- The first condition of R52 fails at an address: it is both writable and executable (R57 too). -/
def clashAt (m : MemMap) (a : Word) : Bool := writable m a && executable m a

/-- The second condition of R52 fails at an address: it is readable or executable and has no initial byte. -/
def missingAt (p : Launch) (a : Word) : Bool := (readable p.map a || executable p.map a) && (initByte p a).isNone

/-- Where a stretch begins and where it has just ended. -/
def spanBounds (base : Word) (size : Nat) : List Word := [base, addrPlus base size]

/-- The addresses at which the permissions of a map can change. -/
def mapBounds (m : MemMap) : List Word := m.flatMap fun g => spanBounds g.base g.size

/-- The addresses at which having an initial byte can change. -/
def initBounds (p : Launch) : List Word :=
  (p.initMem.flatMap fun c => spanBounds c.1 1) ++ p.blank.flatMap fun g => spanBounds g.base g.size

/-- Whether a map has a byte both writable and executable. Between two neighbouring bounds the
permissions are the same, so the bounds are all that need be asked. -/
def mapClashes (m : MemMap) : Bool := (mapBounds m).any (clashAt m)

/-- Whether a readable or executable byte has no initial byte, asked at the bounds of the map and of `INIT_MEM`. -/
def initMissing (p : Launch) : Bool := (mapBounds p.map ++ initBounds p).any (missingAt p)

/-- The first state of a run (10_state.md R35), or the refusal of a launch that breaks a condition of R52. A
misaligned `ENTRY_PC` is not refused (R201). -/
def launch (p : Launch) : Result :=
  if mapClashes p.map || initMissing p then .refused .launchNotAdmitted
  else .next
    { x := p.initX, pc := p.entryPc, mem := initMemory p.initMem, status := .running,
      byteOrder := p.byteOrder, map := p.map, haltPc := p.haltPc }

/-- The parameters of the launch that `State.reset` is (notes/assumptions 1 to 5). -/
def resetLaunch : Launch where
  byteOrder := Config.resetByteOrder
  map := Config.resetMap
  initMem := []
  blank := [{ base := 0, size := 4294967296 }]
  entryPc := Config.resetPc
  initX := Vector.replicate 31 Config.resetReg
  haltPc := Config.resetHaltPc

end Sys2Proof.Machine
end

