-- ==== Sys2Proof/Machine/Step.lean ====
section
/-! DEFINITION. The step of 10_state.md R36, and the placing of the host's instruction. -/

namespace Sys2Proof.Machine

/-- One step (R36). While the run is running: end at `HALT_PC`; else fetch, decode and execute, or
raise what the fetch and the decoding raise. An ended state stays as it is, and in a faulted state no step is taken (R34). -/
def step (s : State) : Host.Outcome State Fault Refusal :=
  match s.status with
  | .ended => .next s
  | .faulted e info => .fault (.stopped e info)
  | .running =>
    if atHalt s then .next (endRun s)
    else match fetchInstr s with
      | .error e => raise e s
      | .ok i => exec i s

/-- The state with the instruction of bits `w` loaded where the next step fetches it. It stands for the
host's load of a program before launch (70_reset_and_hazards.md R206; notes/assumptions/7.md). -/
def State.withFetchWord (s : State) (nbits w : Nat) : State := placeWord s (tableWord nbits w)

end Sys2Proof.Machine
end

