-- ==== Sys2Proof/Safety.lean ====
section
/-! DEFINITION. The terms statements about runs are made in: what a run is, what ends it, the invariant
of the machine, and what an instruction leaves unchanged. -/

namespace Sys2Proof.Machine

/-- `t` is reached from `s` in `n` steps that each answer a next state. -/
def Reaches (n : Nat) (s t : State) : Prop := Host.Core.run Sys2Proof.core n s = .next t

/-- The run from `s` ends normally in `t` (70_reset_and_hazards.md R205 (a)): the only kind of state of
which a program's postcondition is claimed (10_state.md R34). -/
def EndsIn (s t : State) : Prop := ∃ n, Reaches n s t ∧ t.status = .ended

/-- Whether a state is faulted (60_exceptions.md R180). -/
def Faulted (s : State) : Prop := ∃ e info, s.status = .faulted e info

/-- The map of a launch: no byte is both writable and executable (20_memory.md R52, R57). -/
def MapAdmitted (m : MemMap) : Prop := ∀ a, ¬ (writable m a = true ∧ executable m a = true)

/-- A launch that breaks neither condition of 20_memory.md R52: no byte is both writable and executable, and every byte
that is readable or executable has an initial byte. -/
structure LaunchAdmitted (p : Launch) : Prop where
  map : MapAdmitted p.map
  init : ∀ a, readable p.map a = true ∨ executable p.map a = true → initByte p a ≠ none

/-- A state holds the program of a launch: the map is the launch's, no byte is both writable and executable, and every
executable byte is the byte of `INIT_MEM` (20_memory.md R57, R61). -/
structure HoldsProgram (p : Launch) (s : State) : Prop where
  admitted : MapAdmitted p.map
  map : s.map = p.map
  program : ∀ a, executable p.map a = true → initByte p a = some (byteAt s a)

/-- pc is a multiple of 4 (10_state.md R27). -/
def PcAligned (s : State) : Prop := s.pc.toNat % 4 = 0

/-- What holds in every state of a run launched with an aligned `ENTRY_PC`: memory is in canonical
form, no byte is both writable and executable, and pc is a multiple of 4. -/
structure Inv (s : State) : Prop where
  mem : Memory.wf s.mem = true
  map : MapAdmitted s.map
  pc : PcAligned s

/-- The launch parameters of two states are the same (00_scope.md R7: fixed for a run). -/
def SameParameters (s t : State) : Prop := t.byteOrder = s.byteOrder ∧ t.map = s.map ∧ t.haltPc = s.haltPc

/-- Every x register reads the same in two states. -/
def SameRegs (s t : State) : Prop := ∀ r, readReg t r = readReg s r

/-- Every byte of memory reads the same in two states. -/
def SameMemory (s t : State) : Prop := ∀ a, byteAt t a = byteAt s a

/-- From `s` to `t` the register `rd` received `v` and no other register changed; a write to x0 was
discarded (10_state.md R21). -/
def RegWritten (s t : State) (rd : Reg) (v : Word) : Prop :=
  ∀ r, readReg t r = if r = 0#5 then 0#32 else if r = rd then v else readReg s r

/-- The frame of an instruction that stores nothing: memory, the run status and the launch parameters
are as before. -/
def OnlyRegsAndPc (s t : State) : Prop := SameMemory s t ∧ t.status = s.status ∧ SameParameters s t

/-- A computational instruction (40_integer_register_immediate.md R100, 41_integer_register_register.md
R120): from `s` to `t`, `rd` received `v`, pc went on by 4, and nothing else changed. -/
def Computed (s t : State) (rd : Reg) (v : Word) : Prop :=
  RegWritten s t rd v ∧ t.pc = s.pc + 4 ∧ OnlyRegsAndPc s t

/-- `t` is `s` with the exception raised and nothing else changed (60_exceptions.md R180). -/
def RaisedIn (s t : State) (e : Cause) (info : Word) : Prop :=
  t.status = .faulted e info ∧ t.pc = s.pc ∧ SameRegs s t ∧ SameMemory s t ∧ SameParameters s t

/-- Running instruction `i` in `s` raises the exception and does nothing else. -/
def Raises (i : Instr) (s : State) (e : Cause) (info : Word) : Prop := ∃ t, exec i s = .next t ∧ RaisedIn s t e info

/-- Running the computational instruction `i` in `s` completes with `v` in `rd`. -/
def Computes (i : Instr) (s : State) (rd : Reg) (v : Word) : Prop := ∃ t, exec i s = .next t ∧ Computed s t rd v

/-- Every byte of an access of `n` bytes at `a` passes a check of the map (20_memory.md R52). -/
def EveryByte (n : Nat) (a : Word) (ok : Word → Bool) : Prop := ∀ i, i < n → ok (addrPlus a i) = true

/-- The address `a` is one of the `n` bytes from `b` on. -/
def Touches (n : Nat) (b a : Word) : Prop := ∃ i, i < n ∧ a = addrPlus b i

/-- The number that the bytes `b 0 .. b (n-1)` make with `b 0` least significant (20_memory.md R43). -/
def littleNat (b : Nat → Byte) : Nat → Nat
  | 0 => 0
  | n + 1 => littleNat b n + (b n).toNat * 256 ^ n

/-- The number that the bytes `b 0 .. b (n-1)` make with `b 0` most significant (R59, `BYTE_ORDER = big`). -/
def bigNat (b : Nat → Byte) : Nat → Nat
  | 0 => 0
  | n + 1 => bigNat b n * 256 + (b n).toNat

/-- The number that `n` bytes of memory from `a` on make in the state's byte order. -/
def accessNat (s : State) (a : Word) (n : Nat) : Nat :=
  match s.byteOrder with
  | .little => littleNat (fun i => byteAt s (addrPlus a i)) n
  | .big => bigNat (fun i => byteAt s (addrPlus a i)) n

/-- A number below `2 ^ bits` read as a two's complement number of that many bits. -/
def signedNat (bits n : Nat) : Int := if n < 2 ^ (bits - 1) then n else (n : Int) - 2 ^ bits

/-- An access of `n` bytes at an effective address that is not a multiple of `n` raises (43_load_store.md R170 (1)). -/
def MisalignedRaises (i : Instr) (n : Nat) (e : Cause) (rs1 : Reg) (imm : Imm12) (s : State) : Prop :=
  (effectiveAddress s rs1 imm).toNat % n ≠ 0 → Raises i s e (effectiveAddress s rs1 imm)

/-- What an aligned load of `n` bytes does (43_load_store.md R160, R169, R170 (2)): with a byte not readable it
raises; else `rd` receives `v`. -/
def LoadOutcome (i : Instr) (n : Nat) (rd rs1 : Reg) (imm : Imm12) (s : State) (v : Word) : Prop :=
  ((effectiveAddress s rs1 imm).toNat % n = 0 → ¬ EveryByte n (effectiveAddress s rs1 imm) (readable s.map) →
    Raises i s .loadAccessFault (effectiveAddress s rs1 imm)) ∧
  ((effectiveAddress s rs1 imm).toNat % n = 0 → EveryByte n (effectiveAddress s rs1 imm) (readable s.map) →
    Computes i s rd v)

/-- The significance of the unit that lies at place `k` of `n` units in memory: the lowest address holds the least
significant unit where `BYTE_ORDER` is little, the most significant where it is big (20_memory.md R43). -/
def unitPlace (o : ByteOrder) (n k : Nat) : Nat :=
  match o with
  | .little => k
  | .big => n - 1 - k

/-- From `s` to `t` the low `n` bytes of `v` were stored from `a` on, in the byte order of the state, and no other
byte of memory changed (20_memory.md R48, R60). -/
def BytesStored (s t : State) (n : Nat) (a v : Word) : Prop :=
  (∀ k, k < n → byteAt t (addrPlus a k) = BitVec.ofNat 8 (v.toNat / 256 ^ unitPlace s.byteOrder n k)) ∧
  (∀ b, ¬ Touches n a b → byteAt t b = byteAt s b)

/-- What an aligned store of `n` bytes does (43_load_store.md R160, R169, R170 (2)): with a byte not writable it
raises; else the low `n` bytes of x[rs2] are stored at the effective address, pc goes on by 4, and nothing
else changes. -/
def StoreOutcome (i : Instr) (n : Nat) (rs2 rs1 : Reg) (imm : Imm12) (s : State) : Prop :=
  ((effectiveAddress s rs1 imm).toNat % n = 0 → ¬ EveryByte n (effectiveAddress s rs1 imm) (writable s.map) →
    Raises i s .storeAccessFault (effectiveAddress s rs1 imm)) ∧
  ((effectiveAddress s rs1 imm).toNat % n = 0 → EveryByte n (effectiveAddress s rs1 imm) (writable s.map) →
    ∃ t, exec i s = .next t ∧ BytesStored s t n (effectiveAddress s rs1 imm) (readReg s rs2) ∧
      SameRegs s t ∧ t.pc = s.pc + 4 ∧ t.status = s.status ∧ SameParameters s t)

/-- What a jump to `target` does (42_control_transfer.md R140 to R142): a misaligned target raises; else rd
receives `pc + 4` and the next instruction is at the target. -/
def JumpOutcome (i : Instr) (rd : Reg) (s : State) (target : Word) : Prop :=
  (target.toNat % 4 ≠ 0 → Raises i s .instructionAddressMisaligned target) ∧
  (target.toNat % 4 = 0 → ∃ t, exec i s = .next t ∧ RegWritten s t rd (s.pc + 4) ∧ t.pc = target ∧ OnlyRegsAndPc s t)

/-- What a branch with the condition `taken` does (42_control_transfer.md R140, R143): not taken, it only goes
on, whatever its offset; taken, a misaligned target raises, else the next instruction is there. -/
def BranchOutcome (i : Instr) (s : State) (taken : Prop) (target : Word) : Prop :=
  (¬ taken → ∃ t, exec i s = .next t ∧ t.pc = s.pc + 4 ∧ SameRegs s t ∧ OnlyRegsAndPc s t) ∧
  (taken → target.toNat % 4 ≠ 0 → Raises i s .instructionAddressMisaligned target) ∧
  (taken → target.toNat % 4 = 0 → ∃ t, exec i s = .next t ∧ t.pc = target ∧ SameRegs s t ∧ OnlyRegsAndPc s t)

/-- The target of a branch of R143 as the spec says it: pc plus twice the signed field, modulo 2^32. -/
def scaledTarget (s : State) (field : Int) : Word := BitVec.ofInt 32 (s.pc.toInt + 2 * field)

/-- The instruction has the row's fixed bits in the opcode table and in its encoding (30_encoding.md R84). -/
def HasRow (i : Instr) (bits mask : Word) : Prop := i.tableRow = ⟨bits, mask⟩ ∧ encode i &&& mask = bits

/-- The R-type word with these fields (30_encoding.md R71; the shift form R78 has shamt for rs2) is the instruction. -/
def WordR (i : Instr) (funct7 : BitVec 7) (rs2 rs1 : Reg) (funct3 : BitVec 3) (rd : Reg) (op : BitVec 7) : Prop :=
  decode (funct7 ++ rs2 ++ rs1 ++ funct3 ++ rd ++ op) = .ok i

/-- The I-type word with these fields (R72) is the instruction. -/
def WordI (i : Instr) (imm : Imm12) (rs1 : Reg) (funct3 : BitVec 3) (rd : Reg) (op : BitVec 7) : Prop :=
  decode (imm ++ rs1 ++ funct3 ++ rd ++ op) = .ok i

/-- The S-type word with these fields (R73) is the instruction. -/
def WordS (i : Instr) (imm : Imm12) (rs2 rs1 : Reg) (funct3 : BitVec 3) (op : BitVec 7) : Prop :=
  decode (imm ++ rs2 ++ rs1 ++ funct3 ++ op) = .ok i

/-- The U-type word with these fields (R74) is the instruction. -/
def WordU (i : Instr) (imm : Imm20) (rd : Reg) (op : BitVec 7) : Prop :=
  decode (imm ++ rd ++ op) = .ok i

/-- The bytes of the next instruction, at pc .. pc+3. -/
def nextBytes (s : State) : List Byte :=
  [byteAt s (addrPlus s.pc 0), byteAt s (addrPlus s.pc 1), byteAt s (addrPlus s.pc 2), byteAt s (addrPlus s.pc 3)]

end Sys2Proof.Machine

namespace Sys2Proof

/-- The rd field of an instruction, where its format has one (10_state.md R24). -/
def Instr.dest : Instr → Option Reg
  | .addi rd _ _ | .slti rd _ _ | .sltiu rd _ _ | .andi rd _ _ | .ori rd _ _ | .xori rd _ _ => some rd
  | .slli rd _ _ | .srli rd _ _ | .srai rd _ _ => some rd
  | .lui rd _ | .auipc rd _ => some rd
  | .add rd _ _ | .slt rd _ _ | .sltu rd _ _ | .and rd _ _ | .or rd _ _ | .xor rd _ _ => some rd
  | .sll rd _ _ | .srl rd _ _ | .sub rd _ _ | .sra rd _ _ => some rd
  | .jal rd _ | .jalr rd _ _ => some rd
  | .lw rd _ _ | .lh rd _ _ | .lhu rd _ _ | .lb rd _ _ | .lbu rd _ _ => some rd
  | .beq _ _ _ | .bne _ _ _ | .blt _ _ _ | .bltu _ _ _ | .bge _ _ _ | .bgeu _ _ _ => none
  | .sw _ _ _ | .sh _ _ _ | .sb _ _ _ => none

/-- The instruction with another rd field, where its format has one. -/
def Instr.withDest (q : Reg) : Instr → Instr
  | .addi _ rs1 imm => .addi q rs1 imm
  | .slti _ rs1 imm => .slti q rs1 imm
  | .sltiu _ rs1 imm => .sltiu q rs1 imm
  | .andi _ rs1 imm => .andi q rs1 imm
  | .ori _ rs1 imm => .ori q rs1 imm
  | .xori _ rs1 imm => .xori q rs1 imm
  | .slli _ rs1 shamt => .slli q rs1 shamt
  | .srli _ rs1 shamt => .srli q rs1 shamt
  | .srai _ rs1 shamt => .srai q rs1 shamt
  | .lui _ imm => .lui q imm
  | .auipc _ imm => .auipc q imm
  | .add _ rs1 rs2 => .add q rs1 rs2
  | .slt _ rs1 rs2 => .slt q rs1 rs2
  | .sltu _ rs1 rs2 => .sltu q rs1 rs2
  | .and _ rs1 rs2 => .and q rs1 rs2
  | .or _ rs1 rs2 => .or q rs1 rs2
  | .xor _ rs1 rs2 => .xor q rs1 rs2
  | .sll _ rs1 rs2 => .sll q rs1 rs2
  | .srl _ rs1 rs2 => .srl q rs1 rs2
  | .sub _ rs1 rs2 => .sub q rs1 rs2
  | .sra _ rs1 rs2 => .sra q rs1 rs2
  | .jal _ imm => .jal q imm
  | .jalr _ rs1 imm => .jalr q rs1 imm
  | .lw _ rs1 imm => .lw q rs1 imm
  | .lh _ rs1 imm => .lh q rs1 imm
  | .lhu _ rs1 imm => .lhu q rs1 imm
  | .lb _ rs1 imm => .lb q rs1 imm
  | .lbu _ rs1 imm => .lbu q rs1 imm
  | .beq rs1 rs2 imm => .beq rs1 rs2 imm
  | .bne rs1 rs2 imm => .bne rs1 rs2 imm
  | .blt rs1 rs2 imm => .blt rs1 rs2 imm
  | .bltu rs1 rs2 imm => .bltu rs1 rs2 imm
  | .bge rs1 rs2 imm => .bge rs1 rs2 imm
  | .bgeu rs1 rs2 imm => .bgeu rs1 rs2 imm
  | .sw rs2 rs1 imm => .sw rs2 rs1 imm
  | .sh rs2 rs1 imm => .sh rs2 rs1 imm
  | .sb rs2 rs1 imm => .sb rs2 rs1 imm

/-- The access of a load or store: whether it stores, its width, and its base and offset (20_memory.md R48). -/
def Instr.access : Instr → Option (Bool × Machine.Width × Reg × Imm12)
  | .lw _ rs1 imm => some (false, .word, rs1, imm)
  | .lh _ rs1 imm | .lhu _ rs1 imm => some (false, .half, rs1, imm)
  | .lb _ rs1 imm | .lbu _ rs1 imm => some (false, .byte, rs1, imm)
  | .sw _ rs1 imm => some (true, .word, rs1, imm)
  | .sh _ rs1 imm => some (true, .half, rs1, imm)
  | .sb _ rs1 imm => some (true, .byte, rs1, imm)
  | .addi _ _ _ | .slti _ _ _ | .sltiu _ _ _ | .andi _ _ _ | .ori _ _ _ | .xori _ _ _ => none
  | .slli _ _ _ | .srli _ _ _ | .srai _ _ _ | .lui _ _ | .auipc _ _ => none
  | .add _ _ _ | .slt _ _ _ | .sltu _ _ _ | .and _ _ _ | .or _ _ _ | .xor _ _ _ => none
  | .sll _ _ _ | .srl _ _ _ | .sub _ _ _ | .sra _ _ _ | .jal _ _ | .jalr _ _ _ => none
  | .beq _ _ _ | .bne _ _ _ | .blt _ _ _ | .bltu _ _ _ | .bge _ _ _ | .bgeu _ _ _ => none

end Sys2Proof
end

