-- ==== Sys2Proof/Certificates/Slice0/Obligations.lean ====
section
/-! DEFINITION. The statements for the provers, by the file of spec/ they come from. What each says is in
its docstring; the predicates are those of Sys2Proof/Safety.lean. Each statement about an instruction begins with
its row of the opcode table (`HasRow`) and its word, field by field (`WordR`, `WordI`, `WordS`, `WordU`). -/

open Sys2Proof Sys2Proof.Machine

/-! ### Encoding (30_encoding.md) -/

/-- Decode and encode agree, byte for byte: the four bytes of an encoded instruction, in either byte
order and with any bytes after them, decode to that instruction and those bytes (R71 to R74, R84, R44). -/
def Obligations.DecodeOfEncodedBytes : Prop :=
  ∀ (o : ByteOrder) (i : Instr) (rest : List Byte), decodeBytes o (bytesOfWord o (encode i) ++ rest) = .ok (i, rest)

/-- Every word the decoder accepts is the encoding of what it reads: no two words decode to one
instruction, and no bit of a word is dropped (R84). -/
def Obligations.EncodeOfDecoded : Prop :=
  ∀ (w : Word) (i : Instr), decode w = .ok i → encode i = w

/-- The decoder agrees with the match and mask columns of the opcode table: a word is an instruction
exactly when `w & mask = match` for that instruction's row (R84). -/
def Obligations.DecoderMatchesTable : Prop :=
  ∀ w : Word, (∀ i, decode w = .ok i → i.tableRow ∈ opcodeTable ∧ w &&& i.tableRow.mask = i.tableRow.bits) ∧
    (∀ r ∈ opcodeTable, w &&& r.mask = r.bits → ∃ i, decode w = .ok i ∧ i.tableRow = r)

/-- No two of the 37 rows match the same word (R84). -/
def Obligations.TableRowsDisjoint : Prop :=
  opcodeTable.length = 37 ∧ ∀ w : Word, (opcodeTable.filter fun r => r.holds w).length ≤ 1

/-- The illegal words are exactly the seven classes, and executing one raises
`IllegalInstruction(inst)` and changes no state (R85). -/
def Obligations.IllegalWordsRaise : Prop :=
  ∀ w : Word, (wordWellFormed w = true → ∃ i, decode w = .ok i) ∧
    (wordWellFormed w = false → ∀ s : State, s.status = .running → s.pc ≠ s.haltPc → s.pc.toNat % 4 = 0 →
      fetch s s.pc = .ok w → ∃ t, step s = .next t ∧ RaisedIn s t .illegalInstruction w)

/-- Five words written out from the formats, one of each format and both S-type families (R71 to R74). -/
def Obligations.WrittenWordsDecode : Prop :=
  decode (0b01000001101111010000110010110011 : Word) = .ok (.sub 25 26 27) ∧
  decode (0b11111111111100010000000010010011 : Word) = .ok (.addi 1 2 0xFFF) ∧
  decode (0b00000000100000101000100100100011 : Word) = .ok (.sw 5 2 8) ∧
  decode (0b11111111110000000000010011100011 : Word) = .ok (.bne 1 0 0xFFC) ∧
  decode (0b00000000000000000110000011101111 : Word) = .ok (.jal 1 6)

/-- How the immediate fields become operands: the 12-bit immediate is sign-extended and not scaled
(R77, R79); branch and JAL offsets are signed and count units of 2 bytes (R80, R82); the U-immediate
fills the top 20 bits (R81); a shift by a register takes the low 5 bits of it. -/
def Obligations.OperandForms : Prop :=
  (∀ imm : Imm12, (immOperand imm).toInt = imm.toInt ∧ -2048 ≤ imm.toInt ∧ imm.toInt ≤ 2047) ∧
  (∀ imm : Imm12, (branchOffset imm).toInt = 2 * imm.toInt ∧ -4096 ≤ 2 * imm.toInt ∧ 2 * imm.toInt ≤ 4094) ∧
  (∀ imm : Imm20, (jalOffset imm).toInt = 2 * imm.toInt ∧ -1048576 ≤ 2 * imm.toInt ∧ 2 * imm.toInt ≤ 1048574) ∧
  (∀ imm : Imm20, (upperOperand imm).toNat = imm.toNat * 4096) ∧
  (∀ v : Word, shiftByRegister v = v.toNat % 32)

/-- BGT, BGTU, BLE and BLEU are BLT, BLTU, BGE and BGEU with the operands reversed (R89). -/
def Obligations.ReversedBranches : Prop :=
  ∀ (rs rt : Reg) (imm : Imm12) (s : State),
    BranchOutcome (.blt rt rs imm) s ((readReg s rs).toInt > (readReg s rt).toInt) (scaledTarget s imm.toInt) ∧
    BranchOutcome (.bltu rt rs imm) s ((readReg s rs).toNat > (readReg s rt).toNat) (scaledTarget s imm.toInt) ∧
    BranchOutcome (.bge rt rs imm) s ((readReg s rs).toInt ≤ (readReg s rt).toInt) (scaledTarget s imm.toInt) ∧
    BranchOutcome (.bgeu rt rs imm) s ((readReg s rs).toNat ≤ (readReg s rt).toNat) (scaledTarget s imm.toInt)

/-! ### Registers, pc and the step (10_state.md) -/

/-- x0 reads as 0, and an instruction whose rd is x0 does what it does with any other rd but for the
register: its memory access, its change of pc and its faults are the same (R21). -/
def Obligations.WriteToX0IsDiscarded : Prop :=
  (∀ s : State, readReg s 0#5 = 0#32) ∧
  ∀ (i : Instr) (q : Reg) (s t : State), exec (i.withDest q) s = .next t → i.dest ≠ none →
    exec (i.withDest 0#5) s = .next { t with x := s.x }

/-- An instruction writes at most one x register, the one its rd field names; branches and stores, which
have no rd, write none (R24). -/
def Obligations.OnlyRdIsWritten : Prop :=
  ∀ (i : Instr) (s t : State) (r : Reg), exec i s = .next t → i.dest ≠ some r → readReg t r = readReg s r

/-- A step whose pc is not `HALT_PC`, is a multiple of 4, and whose four bytes are executable and decode
to an instruction is that instruction's meaning, with nothing added around it (R36). -/
def Obligations.StepRunsDecoded : Prop :=
  ∀ (s : State) (i : Instr), s.status = .running → s.pc ≠ s.haltPc → s.pc.toNat % 4 = 0 →
    EveryByte 4 s.pc (executable s.map) → decodeBytes s.byteOrder (nextBytes s) = .ok (i, []) → step s = exec i s

/-- The faults of fetching, in their order: a misaligned pc, then a byte that is not executable, then an
illegal word (R36, 60_exceptions.md R183 items 1 to 3). -/
def Obligations.FetchFaultsInOrder : Prop :=
  ∀ s : State, s.status = .running → s.pc ≠ s.haltPc →
    (s.pc.toNat % 4 ≠ 0 → ∃ t, step s = .next t ∧ RaisedIn s t .instructionAddressMisaligned s.pc) ∧
    (s.pc.toNat % 4 = 0 → ¬ EveryByte 4 s.pc (executable s.map) →
      ∃ t, step s = .next t ∧ RaisedIn s t .instructionAccessFault s.pc) ∧
    (s.pc.toNat % 4 = 0 → EveryByte 4 s.pc (executable s.map) →
      wordWellFormed (BitVec.ofNat 32 (accessNat s s.pc 4)) = false →
      ∃ t, step s = .next t ∧ RaisedIn s t .illegalInstruction (BitVec.ofNat 32 (accessNat s s.pc 4)))

/-- A run ends at `HALT_PC`, mapped or not: the status becomes `ended` and nothing else changes
(70_reset_and_hazards.md R205 (a)). -/
def Obligations.RunEndsAtHaltPc : Prop :=
  ∀ s : State, s.status = .running → s.pc = s.haltPc →
    ∃ t, step s = .next t ∧ t.status = .ended ∧ t.pc = s.pc ∧ SameRegs s t ∧ SameMemory s t ∧ SameParameters s t

/-- `ended` and `faulted` are absorbing (R34). That an ended state answers itself, and a faulted one the
fault `stopped`, is the model's choice of form (notes/assumptions/6.md). -/
def Obligations.EndedAndFaultedAbsorb : Prop :=
  ∀ s : State, (s.status = .ended → ∀ n, Reaches n s s) ∧
    (∀ e info, s.status = .faulted e info → ∀ n t, Reaches n s t → n = 0 ∧ t = s)

/-- Every running state has exactly one step, to a next state: no instruction and no word is refused or
left without an outcome (70_reset_and_hazards.md R207). -/
def Obligations.EveryRunningStateSteps : Prop :=
  ∀ s : State, s.status = .running → ∃ t, step s = .next t ∧
    (t.status = .running ∨ (t.status = .ended ∧ s.pc = s.haltPc) ∨ Faulted t)

/-- pc stays a multiple of 4 once it is one (R27). -/
def Obligations.PcStaysAligned : Prop :=
  ∀ s t : State, PcAligned s → step s = .next t → PcAligned t

/-- The invariant of the machine is kept by every step: memory in canonical form, no byte both writable
and executable, pc aligned (R27, 20_memory.md R52, R57). -/
def Obligations.StepKeepsInvariant : Prop :=
  ∀ s t : State, Inv s → step s = .next t → Inv t

/-- The invariant holds at reset. The values of reset are the model's choice (notes/assumptions 1 to 5). -/
def Obligations.ResetHasInvariant : Prop := Inv State.reset

/-- At reset x0 reads 0 and the run is running, as R35 says of every launch; the reset is the launch with the
parameters that notes/assumptions 1 to 5 choose. -/
def Obligations.ResetIsALaunch : Prop :=
  readReg State.reset 0#5 = 0#32 ∧ State.reset.status = .running ∧ launch resetLaunch = .next State.reset

/-- The instruction that `withFetchWord` places is what the next step runs, from any state
(the model's own device, notes/assumptions/7.md). -/
def Obligations.PlacedInstructionRuns : Prop :=
  ∀ (s : State) (w : Nat) (i : Instr), decodeTableWord 32 w = some i →
    step (s.withFetchWord 32 w) = exec i (s.withFetchWord 32 w)

/-! ### Memory (20_memory.md) -/

/-- The effective address is the base plus the signed offset modulo 2^32 (R62). -/
def Obligations.EffectiveAddressWraps : Prop :=
  ∀ (s : State) (rs1 : Reg) (imm : Imm12),
    ((effectiveAddress s rs1 imm).toNat : Int) = ((readReg s rs1).toInt + imm.toInt) % 2 ^ 32

/-- Only stores change memory, and a step changes only bytes of the access its instruction makes, each of them
writable (R42, R48, R52). -/
def Obligations.OnlyStoresChangeMemory : Prop :=
  ∀ (s t : State) (a : Word), step s = .next t → byteAt t a ≠ byteAt s a →
    ∃ i w rs1 imm, fetchInstr s = .ok i ∧ i.access = some (true, w, rs1, imm) ∧
      Touches w.bytes (effectiveAddress s rs1 imm) a ∧ writable s.map a = true

/-- Computational, jump and branch instructions do not read memory: on states that differ in memory alone they
do the same (R42). -/
def Obligations.OnlyLoadsAndStoresUseMemory : Prop :=
  ∀ (i : Instr) (s t : State) (m : Memory), i.access = none → exec i s = .next t →
    t.mem = s.mem ∧ exec i { s with mem := m } = .next { t with mem := m }

/-- No step changes a launch parameter: byte order, map and `HALT_PC` are fixed for the run (R43, R53). -/
def Obligations.ParametersAreFixed : Prop :=
  ∀ s t : State, step s = .next t → SameParameters s t

/-- Self-modifying code is refused: with a map no launch is refused for, a store that would touch an
executable byte raises `StoreAccessFault`, and a fetch that would touch a writable byte raises
`InstructionAccessFault` (R57). -/
def Obligations.SelfModifyingCodeRefused : Prop :=
  ∀ s : State, MapAdmitted s.map →
    (∀ i w rs1 imm a, i.access = some (true, w, rs1, imm) → (effectiveAddress s rs1 imm).toNat % w.bytes = 0 →
      Touches w.bytes (effectiveAddress s rs1 imm) a → executable s.map a = true →
      Raises i s .storeAccessFault (effectiveAddress s rs1 imm)) ∧
    (∀ a, s.status = .running → s.pc ≠ s.haltPc → s.pc.toNat % 4 = 0 → Touches 4 s.pc a → writable s.map a = true →
      ∃ t, step s = .next t ∧ RaisedIn s t .instructionAccessFault s.pc)

/-- The program is fixed for the whole run: in every state a run reaches, the map is the launch's and each
executable byte has an initial byte, which it still holds (R61, 70_reset_and_hazards.md R208). How a launch gives
`INIT_MEM`, by listed bytes and blank stretches, is the model's choice (notes/assumptions/3.md). -/
def Obligations.ProgramFixedForTheRun : Prop :=
  ∀ (p : Launch) (s t : State) (n : Nat), launch p = .next s → Reaches n s t →
    t.map = p.map ∧ ∀ a, executable p.map a = true → initByte p a = some (byteAt t a)

/-- Every step keeps the program, from every state that holds it and not only in a run (R57, R61). How a launch gives
`INIT_MEM` is the model's choice (notes/assumptions/3.md). -/
def Obligations.StepKeepsProgram : Prop :=
  ∀ (p : Launch) (s t : State), HoldsProgram p s → step s = .next t → HoldsProgram p t

/-- What is stored is what is loaded: after SW, SH or SB, the load of the same size at the same address gives
the bits stored, in either byte order (R54, R59, R60). -/
def Obligations.StoreThenLoad : Prop :=
  ∀ (s : State) (rd rs2 rs1 : Reg) (imm : Imm12),
    ((effectiveAddress s rs1 imm).toNat % 4 = 0 → EveryByte 4 (effectiveAddress s rs1 imm) (writable s.map) →
      EveryByte 4 (effectiveAddress s rs1 imm) (readable s.map) →
      ∃ t, exec (.sw rs2 rs1 imm) s = .next t ∧ Computes (.lw rd rs1 imm) t rd (readReg s rs2)) ∧
    ((effectiveAddress s rs1 imm).toNat % 2 = 0 → EveryByte 2 (effectiveAddress s rs1 imm) (writable s.map) →
      EveryByte 2 (effectiveAddress s rs1 imm) (readable s.map) →
      ∃ t, exec (.sh rs2 rs1 imm) s = .next t ∧
        Computes (.lhu rd rs1 imm) t rd (BitVec.ofNat 32 ((readReg s rs2).toNat % 65536))) ∧
    (EveryByte 1 (effectiveAddress s rs1 imm) (writable s.map) → EveryByte 1 (effectiveAddress s rs1 imm) (readable s.map) →
      ∃ t, exec (.sb rs2 rs1 imm) s = .next t ∧
        Computes (.lbu rd rs1 imm) t rd (BitVec.ofNat 32 ((readReg s rs2).toNat % 256)))

/-- Memory keeps no record of widths: after a word is written, each of its bytes and halfwords reads as the bits
of the word that the byte order puts there (R45). -/
def Obligations.MixedWidthReads : Prop :=
  ∀ (s t : State) (a v : Word), memWrite s a .word v = .ok t → EveryByte 4 a (readable s.map) →
    (∀ i, i < 4 → memRead t (addrPlus a i) .byte = .ok (BitVec.ofNat 8 (v.toNat / 256 ^ unitPlace s.byteOrder 4 i))) ∧
    (∀ j, j < 2 → memRead t (addrPlus a (2 * j)) .half =
      .ok (BitVec.ofNat 16 (v.toNat / 65536 ^ unitPlace s.byteOrder 2 j)))

/-! ### Register-immediate instructions (40_integer_register_immediate.md) -/

/-- ADDI adds the sign-extended immediate modulo 2^32 (R101). -/
def Obligations.AddiAdds : Prop :=
  ∀ (rd rs1 : Reg) (imm : Imm12) (s : State),
    HasRow (.addi rd rs1 imm) 0x00000013 0x0000707F ∧ WordI (.addi rd rs1 imm) imm rs1 0b000 rd 0b0010011 ∧
    Computes (.addi rd rs1 imm) s rd (BitVec.ofInt 32 ((readReg s rs1).toInt + imm.toInt))

/-- SLTI compares as signed numbers; SLTIU compares as unsigned numbers with the immediate sign-extended first
(R102, R103). -/
def Obligations.SltiAndSltiuCompare : Prop :=
  ∀ (rd rs1 : Reg) (imm : Imm12) (s : State),
    HasRow (.slti rd rs1 imm) 0x00002013 0x0000707F ∧ WordI (.slti rd rs1 imm) imm rs1 0b010 rd 0b0010011 ∧
    HasRow (.sltiu rd rs1 imm) 0x00003013 0x0000707F ∧ WordI (.sltiu rd rs1 imm) imm rs1 0b011 rd 0b0010011 ∧
    Computes (.slti rd rs1 imm) s rd (if (readReg s rs1).toInt < imm.toInt then 1 else 0) ∧
    Computes (.sltiu rd rs1 imm) s rd
      (if ((readReg s rs1).toNat : Int) < imm.toInt % 2 ^ 32 then 1 else 0)

/-- ANDI, ORI and XORI work bit by bit on x[rs1] and the sign-extended immediate: bit k of the immediate is its
own bit k below 12 and its bit 11 above (R104, R105, R106). -/
def Obligations.LogicalImmediates : Prop :=
  ∀ (rd rs1 : Reg) (imm : Imm12) (s : State),
    HasRow (.andi rd rs1 imm) 0x00007013 0x0000707F ∧ WordI (.andi rd rs1 imm) imm rs1 0b111 rd 0b0010011 ∧
    HasRow (.ori rd rs1 imm) 0x00006013 0x0000707F ∧ WordI (.ori rd rs1 imm) imm rs1 0b110 rd 0b0010011 ∧
    HasRow (.xori rd rs1 imm) 0x00004013 0x0000707F ∧ WordI (.xori rd rs1 imm) imm rs1 0b100 rd 0b0010011 ∧
    ∀ ext : Word, (∀ k, k < 32 → ext.getLsbD k = imm.getLsbD (if k < 12 then k else 11)) →
      Computes (.andi rd rs1 imm) s rd (readReg s rs1 &&& ext) ∧
      Computes (.ori rd rs1 imm) s rd (readReg s rs1 ||| ext) ∧
      Computes (.xori rd rs1 imm) s rd (readReg s rs1 ^^^ ext)

/-- SLLI multiplies by 2^shamt modulo 2^32, SRLI divides the unsigned value rounding down, SRAI divides the
signed value rounding toward minus infinity (R107, R108, R109). -/
def Obligations.ShiftsByConstant : Prop :=
  ∀ (rd rs1 : Reg) (shamt : Shamt) (s : State),
    HasRow (.slli rd rs1 shamt) 0x00001013 0xFE00707F ∧ WordR (.slli rd rs1 shamt) 0b0000000 shamt rs1 0b001 rd 0b0010011 ∧
    HasRow (.srli rd rs1 shamt) 0x00005013 0xFE00707F ∧ WordR (.srli rd rs1 shamt) 0b0000000 shamt rs1 0b101 rd 0b0010011 ∧
    HasRow (.srai rd rs1 shamt) 0x40005013 0xFE00707F ∧ WordR (.srai rd rs1 shamt) 0b0100000 shamt rs1 0b101 rd 0b0010011 ∧
    Computes (.slli rd rs1 shamt) s rd (BitVec.ofNat 32 ((readReg s rs1).toNat * 2 ^ shamt.toNat)) ∧
    Computes (.srli rd rs1 shamt) s rd (BitVec.ofNat 32 ((readReg s rs1).toNat / 2 ^ shamt.toNat)) ∧
    Computes (.srai rd rs1 shamt) s rd (BitVec.ofInt 32 ((readReg s rs1).toInt.fdiv (2 ^ shamt.toNat)))

/-- LUI puts the U-immediate in the top 20 bits; AUIPC adds that to its own address modulo 2^32 (R110, R111). -/
def Obligations.UpperImmediates : Prop :=
  ∀ (rd : Reg) (imm : Imm20) (s : State),
    HasRow (.lui rd imm) 0x00000037 0x0000007F ∧ WordU (.lui rd imm) imm rd 0b0110111 ∧
    HasRow (.auipc rd imm) 0x00000017 0x0000007F ∧ WordU (.auipc rd imm) imm rd 0b0010111 ∧
    Computes (.lui rd imm) s rd (BitVec.ofNat 32 (imm.toNat * 4096)) ∧
    Computes (.auipc rd imm) s rd (BitVec.ofNat 32 (s.pc.toNat + imm.toNat * 4096))

/-! ### Register-register instructions (41_integer_register_register.md) -/

/-- ADD and SUB are addition and subtraction modulo 2^32 (R121, R129). -/
def Obligations.AddAndSub : Prop :=
  ∀ (rd rs1 rs2 : Reg) (s : State),
    HasRow (.add rd rs1 rs2) 0x00000033 0xFE00707F ∧ WordR (.add rd rs1 rs2) 0b0000000 rs2 rs1 0b000 rd 0b0110011 ∧
    HasRow (.sub rd rs1 rs2) 0x40000033 0xFE00707F ∧ WordR (.sub rd rs1 rs2) 0b0100000 rs2 rs1 0b000 rd 0b0110011 ∧
    Computes (.add rd rs1 rs2) s rd (BitVec.ofInt 32 ((readReg s rs1).toInt + (readReg s rs2).toInt)) ∧
    Computes (.sub rd rs1 rs2) s rd (BitVec.ofInt 32 ((readReg s rs1).toInt - (readReg s rs2).toInt))

/-- SLT and SLTU are the signed and unsigned comparisons (R122, R123). -/
def Obligations.SltAndSltuCompare : Prop :=
  ∀ (rd rs1 rs2 : Reg) (s : State),
    HasRow (.slt rd rs1 rs2) 0x00002033 0xFE00707F ∧ WordR (.slt rd rs1 rs2) 0b0000000 rs2 rs1 0b010 rd 0b0110011 ∧
    HasRow (.sltu rd rs1 rs2) 0x00003033 0xFE00707F ∧ WordR (.sltu rd rs1 rs2) 0b0000000 rs2 rs1 0b011 rd 0b0110011 ∧
    Computes (.slt rd rs1 rs2) s rd (if (readReg s rs1).toInt < (readReg s rs2).toInt then 1 else 0) ∧
    Computes (.sltu rd rs1 rs2) s rd (if (readReg s rs1).toNat < (readReg s rs2).toNat then 1 else 0)

/-- AND, OR and XOR are the bitwise operations on the two sources (R124, R125, R126). -/
def Obligations.LogicalRegisters : Prop :=
  ∀ (rd rs1 rs2 : Reg) (s : State),
    HasRow (.and rd rs1 rs2) 0x00007033 0xFE00707F ∧ WordR (.and rd rs1 rs2) 0b0000000 rs2 rs1 0b111 rd 0b0110011 ∧
    HasRow (.or rd rs1 rs2) 0x00006033 0xFE00707F ∧ WordR (.or rd rs1 rs2) 0b0000000 rs2 rs1 0b110 rd 0b0110011 ∧
    HasRow (.xor rd rs1 rs2) 0x00004033 0xFE00707F ∧ WordR (.xor rd rs1 rs2) 0b0000000 rs2 rs1 0b100 rd 0b0110011 ∧
    Computes (.and rd rs1 rs2) s rd (readReg s rs1 &&& readReg s rs2) ∧
    Computes (.or rd rs1 rs2) s rd (readReg s rs1 ||| readReg s rs2) ∧
    Computes (.xor rd rs1 rs2) s rd (readReg s rs1 ^^^ readReg s rs2)

/-- SLL, SRL and SRA shift by the low 5 bits of x[rs2]: bits 31..5 are ignored (R127, R128, R130). -/
def Obligations.ShiftsByRegister : Prop :=
  ∀ (rd rs1 rs2 : Reg) (s : State),
    HasRow (.sll rd rs1 rs2) 0x00001033 0xFE00707F ∧ WordR (.sll rd rs1 rs2) 0b0000000 rs2 rs1 0b001 rd 0b0110011 ∧
    HasRow (.srl rd rs1 rs2) 0x00005033 0xFE00707F ∧ WordR (.srl rd rs1 rs2) 0b0000000 rs2 rs1 0b101 rd 0b0110011 ∧
    HasRow (.sra rd rs1 rs2) 0x40005033 0xFE00707F ∧ WordR (.sra rd rs1 rs2) 0b0100000 rs2 rs1 0b101 rd 0b0110011 ∧
    Computes (.sll rd rs1 rs2) s rd (BitVec.ofNat 32 ((readReg s rs1).toNat * 2 ^ ((readReg s rs2).toNat % 32))) ∧
    Computes (.srl rd rs1 rs2) s rd (BitVec.ofNat 32 ((readReg s rs1).toNat / 2 ^ ((readReg s rs2).toNat % 32))) ∧
    Computes (.sra rd rs1 rs2) s rd (BitVec.ofInt 32 ((readReg s rs1).toInt.fdiv (2 ^ ((readReg s rs2).toNat % 32))))

/-! ### Control transfer (42_control_transfer.md) -/

/-- JAL jumps to its own address plus twice its signed field and links `pc + 4`; a target that is not a multiple
of 4 raises and writes nothing (R141). -/
def Obligations.JalJumps : Prop :=
  ∀ (rd : Reg) (imm : Imm20) (s : State),
    HasRow (.jal rd imm) 0x0000006F 0x0000007F ∧ WordU (.jal rd imm) imm rd 0b1101111 ∧
    JumpOutcome (.jal rd imm) rd s (scaledTarget s imm.toInt)

/-- JALR jumps to the old x[rs1] plus the signed immediate with bit 0 cleared and links `pc + 4`; a target that is
not a multiple of 4 raises and writes nothing (R142). -/
def Obligations.JalrJumps : Prop :=
  ∀ (rd rs1 : Reg) (imm : Imm12) (s : State),
    HasRow (.jalr rd rs1 imm) 0x00000067 0x0000707F ∧ WordI (.jalr rd rs1 imm) imm rs1 0b000 rd 0b1100111 ∧
    JumpOutcome (.jalr rd rs1 imm) rd s
      (BitVec.ofNat 32 ((BitVec.ofInt 32 ((readReg s rs1).toInt + imm.toInt)).toNat / 2 * 2))

/-- BEQ and BNE (R144, R145). -/
def Obligations.BranchesOnEquality : Prop :=
  ∀ (rs1 rs2 : Reg) (imm : Imm12) (s : State),
    HasRow (.beq rs1 rs2 imm) 0x00000063 0x000003FF ∧ WordS (.beq rs1 rs2 imm) imm rs2 rs1 0b000 0b1100011 ∧
    HasRow (.bne rs1 rs2 imm) 0x000000E3 0x000003FF ∧ WordS (.bne rs1 rs2 imm) imm rs2 rs1 0b001 0b1100011 ∧
    BranchOutcome (.beq rs1 rs2 imm) s (readReg s rs1 = readReg s rs2) (scaledTarget s imm.toInt) ∧
    BranchOutcome (.bne rs1 rs2 imm) s (readReg s rs1 ≠ readReg s rs2) (scaledTarget s imm.toInt)

/-- BLT and BGE compare as signed numbers (R146, R148). -/
def Obligations.BranchesOnSignedOrder : Prop :=
  ∀ (rs1 rs2 : Reg) (imm : Imm12) (s : State),
    HasRow (.blt rs1 rs2 imm) 0x00000263 0x000003FF ∧ WordS (.blt rs1 rs2 imm) imm rs2 rs1 0b100 0b1100011 ∧
    HasRow (.bge rs1 rs2 imm) 0x000002E3 0x000003FF ∧ WordS (.bge rs1 rs2 imm) imm rs2 rs1 0b101 0b1100011 ∧
    BranchOutcome (.blt rs1 rs2 imm) s ((readReg s rs1).toInt < (readReg s rs2).toInt) (scaledTarget s imm.toInt) ∧
    BranchOutcome (.bge rs1 rs2 imm) s ((readReg s rs1).toInt ≥ (readReg s rs2).toInt) (scaledTarget s imm.toInt)

/-- BLTU and BGEU compare as unsigned numbers (R147, R149). -/
def Obligations.BranchesOnUnsignedOrder : Prop :=
  ∀ (rs1 rs2 : Reg) (imm : Imm12) (s : State),
    HasRow (.bltu rs1 rs2 imm) 0x00000363 0x000003FF ∧ WordS (.bltu rs1 rs2 imm) imm rs2 rs1 0b110 0b1100011 ∧
    HasRow (.bgeu rs1 rs2 imm) 0x000003E3 0x000003FF ∧ WordS (.bgeu rs1 rs2 imm) imm rs2 rs1 0b111 0b1100011 ∧
    BranchOutcome (.bltu rs1 rs2 imm) s ((readReg s rs1).toNat < (readReg s rs2).toNat) (scaledTarget s imm.toInt) ∧
    BranchOutcome (.bgeu rs1 rs2 imm) s ((readReg s rs1).toNat ≥ (readReg s rs2).toNat) (scaledTarget s imm.toInt)

/-! ### Loads and stores (43_load_store.md) -/

/-- LW loads the 32-bit number of four bytes; misaligned, or with a byte not readable, it raises (R161). -/
def Obligations.LwLoadsWord : Prop :=
  ∀ (rd rs1 : Reg) (imm : Imm12) (s : State),
    HasRow (.lw rd rs1 imm) 0x00002003 0x0000707F ∧ WordI (.lw rd rs1 imm) imm rs1 0b010 rd 0b0000011 ∧
    MisalignedRaises (.lw rd rs1 imm) 4 .loadAddressMisaligned rs1 imm s ∧
    LoadOutcome (.lw rd rs1 imm) 4 rd rs1 imm s (BitVec.ofNat 32 (accessNat s (effectiveAddress s rs1 imm) 4))

/-- LH loads a 16-bit number and sign-extends it, LHU zero-extends it (R162, R163). -/
def Obligations.LhAndLhuLoadHalfword : Prop :=
  ∀ (rd rs1 : Reg) (imm : Imm12) (s : State),
    HasRow (.lh rd rs1 imm) 0x00001003 0x0000707F ∧ WordI (.lh rd rs1 imm) imm rs1 0b001 rd 0b0000011 ∧
    HasRow (.lhu rd rs1 imm) 0x00005003 0x0000707F ∧ WordI (.lhu rd rs1 imm) imm rs1 0b101 rd 0b0000011 ∧
    MisalignedRaises (.lh rd rs1 imm) 2 .loadAddressMisaligned rs1 imm s ∧
    MisalignedRaises (.lhu rd rs1 imm) 2 .loadAddressMisaligned rs1 imm s ∧
    LoadOutcome (.lh rd rs1 imm) 2 rd rs1 imm s
      (BitVec.ofInt 32 (signedNat 16 (accessNat s (effectiveAddress s rs1 imm) 2))) ∧
    LoadOutcome (.lhu rd rs1 imm) 2 rd rs1 imm s (BitVec.ofNat 32 (accessNat s (effectiveAddress s rs1 imm) 2))

/-- LB loads an 8-bit number and sign-extends it, LBU zero-extends it; neither is ever misaligned (R164, R165). -/
def Obligations.LbAndLbuLoadByte : Prop :=
  ∀ (rd rs1 : Reg) (imm : Imm12) (s : State),
    HasRow (.lb rd rs1 imm) 0x00000003 0x0000707F ∧ WordI (.lb rd rs1 imm) imm rs1 0b000 rd 0b0000011 ∧
    HasRow (.lbu rd rs1 imm) 0x00004003 0x0000707F ∧ WordI (.lbu rd rs1 imm) imm rs1 0b100 rd 0b0000011 ∧
    LoadOutcome (.lb rd rs1 imm) 1 rd rs1 imm s
      (BitVec.ofInt 32 (signedNat 8 (byteAt s (effectiveAddress s rs1 imm)).toNat)) ∧
    LoadOutcome (.lbu rd rs1 imm) 1 rd rs1 imm s (BitVec.ofNat 32 (byteAt s (effectiveAddress s rs1 imm)).toNat)

/-- SW stores all four bytes of x[rs2] and no other byte (R166). -/
def Obligations.SwStoresWord : Prop :=
  ∀ (rs2 rs1 : Reg) (imm : Imm12) (s : State),
    HasRow (.sw rs2 rs1 imm) 0x00000123 0x000003FF ∧ WordS (.sw rs2 rs1 imm) imm rs2 rs1 0b010 0b0100011 ∧
    MisalignedRaises (.sw rs2 rs1 imm) 4 .storeAddressMisaligned rs1 imm s ∧ StoreOutcome (.sw rs2 rs1 imm) 4 rs2 rs1 imm s

/-- SH stores the low two bytes of x[rs2], SB the low byte, and no other byte; SB is never misaligned (R167, R168). -/
def Obligations.ShAndSbStoreLowBytes : Prop :=
  ∀ (rs2 rs1 : Reg) (imm : Imm12) (s : State),
    HasRow (.sh rs2 rs1 imm) 0x000000A3 0x000003FF ∧ WordS (.sh rs2 rs1 imm) imm rs2 rs1 0b001 0b0100011 ∧
    HasRow (.sb rs2 rs1 imm) 0x00000023 0x000003FF ∧ WordS (.sb rs2 rs1 imm) imm rs2 rs1 0b000 0b0100011 ∧
    MisalignedRaises (.sh rs2 rs1 imm) 2 .storeAddressMisaligned rs1 imm s ∧
    StoreOutcome (.sh rs2 rs1 imm) 2 rs2 rs1 imm s ∧ StoreOutcome (.sb rs2 rs1 imm) 1 rs2 rs1 imm s

/-! ### Exceptions and launch (60_exceptions.md, 70_reset_and_hazards.md) -/

/-- A step that raises has no architectural effect, leaves the exception and its datum in the run status, and is
the last: no further step is taken (R180). -/
def Obligations.RaiseIsPreciseAndFinal : Prop :=
  ∀ (s t : State) (e : Cause) (info : Word), s.status = .running → step s = .next t → t.status = .faulted e info →
    RaisedIn s t e info ∧ t.x = s.x ∧ t.mem = s.mem ∧ ∀ u, step t ≠ .next u

/-- The 21 computational instructions never raise: the instructions that raise are the jumps, the branches, the
loads and the stores, and each only its own causes, with its own target or effective address (R181). -/
def Obligations.CausesByInstruction : Prop :=
  ∀ (i : Instr) (s t : State) (e : Cause) (info : Word), s.status = .running → exec i s = .next t →
    t.status = .faulted e info →
    match i with
    | .jal _ imm => e = .instructionAddressMisaligned ∧ info = jalTarget s imm ∧ info.toNat % 4 ≠ 0
    | .jalr _ rs1 imm => e = .instructionAddressMisaligned ∧ info = jalrTarget s rs1 imm ∧ info.toNat % 4 ≠ 0
    | .beq _ _ imm | .bne _ _ imm | .blt _ _ imm | .bltu _ _ imm | .bge _ _ imm | .bgeu _ _ imm =>
      e = .instructionAddressMisaligned ∧ info = branchTarget s imm ∧ info.toNat % 4 ≠ 0
    | .lw _ rs1 imm | .lh _ rs1 imm | .lhu _ rs1 imm =>
      (e = .loadAddressMisaligned ∨ e = .loadAccessFault) ∧ info = effectiveAddress s rs1 imm
    | .lb _ rs1 imm | .lbu _ rs1 imm => e = .loadAccessFault ∧ info = effectiveAddress s rs1 imm
    | .sw _ rs1 imm | .sh _ rs1 imm =>
      (e = .storeAddressMisaligned ∨ e = .storeAccessFault) ∧ info = effectiveAddress s rs1 imm
    | .sb _ rs1 imm => e = .storeAccessFault ∧ info = effectiveAddress s rs1 imm
    | _ => False

/-- The first state of an admitted launch: x0 is 0, x1 .. x31 are `INIT_X`, pc is `ENTRY_PC`, every byte to which
the launch gives an initial byte holds it, the run is running, and the other parameters stand as given (10_state.md R35).
That `INIT_MEM` is given by listed bytes and blank stretches is the model's choice (notes/assumptions/3.md). -/
def Obligations.LaunchGivesFirstState : Prop :=
  ∀ p : Launch, LaunchAdmitted p → ∃ s, launch p = .next s ∧ readReg s 0#5 = 0#32 ∧
    (∀ (r : Reg) (h : r.toNat - 1 < 31), r ≠ 0#5 → readReg s r = p.initX[r.toNat - 1]) ∧
    s.pc = p.entryPc ∧ (∀ a b, initByte p a = some b → byteAt s a = b) ∧ s.status = .running ∧
    s.byteOrder = p.byteOrder ∧ s.map = p.map ∧ s.haltPc = p.haltPc

/-- The first state of an admitted launch whose `ENTRY_PC` is a multiple of 4 has the invariant (R35). -/
def Obligations.LaunchHasInvariant : Prop :=
  ∀ p : Launch, LaunchAdmitted p → p.entryPc.toNat % 4 = 0 → ∃ s, launch p = .next s ∧ Inv s

/-- A launch is refused exactly when it breaks one of the two conditions of 20_memory.md R52: some byte is both writable
and executable, or some readable or executable byte has no initial byte. R52 asks for the refusal; that every other launch
is taken, and that asking at the bounds of the stretches is enough, is the model's choice of form (notes/assumptions/9.md),
and so is how a launch gives `INIT_MEM` (notes/assumptions/3.md). -/
def Obligations.LaunchRefusedExactly : Prop :=
  ∀ p : Launch, launch p = .refused .launchNotAdmitted ↔
    (∃ a, writable p.map a = true ∧ executable p.map a = true) ∨
    (∃ a, (readable p.map a = true ∨ executable p.map a = true) ∧ initByte p a = none)

/-- A launch at a misaligned `ENTRY_PC` is not refused: its first step raises
`InstructionAddressMisaligned(ENTRY_PC)`, or ends the run if `ENTRY_PC` is `HALT_PC` (R201). -/
def Obligations.MisalignedEntryRaisesAtFirstStep : Prop :=
  ∀ p : Launch, LaunchAdmitted p → p.entryPc.toNat % 4 ≠ 0 → ∃ s t, launch p = .next s ∧ step s = .next t ∧
    (p.entryPc ≠ p.haltPc → RaisedIn s t .instructionAddressMisaligned p.entryPc) ∧
    (p.entryPc = p.haltPc → t.status = .ended ∧ SameRegs s t ∧ SameMemory s t ∧ t.pc = s.pc)
end

