-- ==== Sys2Proof/Laws/State.lean ====
section
/-! SUPPORT. One lemma per field per update of State, each true by rfl. -/

namespace Sys2Proof.Machine

@[simp] theorem advance_x (s : State) : (advance s).x = s.x := rfl
@[simp] theorem advance_pc (s : State) : (advance s).pc = s.pc + 4 := rfl
@[simp] theorem advance_mem (s : State) : (advance s).mem = s.mem := rfl
@[simp] theorem advance_status (s : State) : (advance s).status = s.status := rfl
@[simp] theorem advance_byteOrder (s : State) : (advance s).byteOrder = s.byteOrder := rfl
@[simp] theorem advance_map (s : State) : (advance s).map = s.map := rfl
@[simp] theorem advance_haltPc (s : State) : (advance s).haltPc = s.haltPc := rfl

@[simp] theorem goTo_x (s : State) (t : Word) : (goTo s t).x = s.x := rfl
@[simp] theorem goTo_pc (s : State) (t : Word) : (goTo s t).pc = t := rfl
@[simp] theorem goTo_mem (s : State) (t : Word) : (goTo s t).mem = s.mem := rfl
@[simp] theorem goTo_status (s : State) (t : Word) : (goTo s t).status = s.status := rfl
@[simp] theorem goTo_byteOrder (s : State) (t : Word) : (goTo s t).byteOrder = s.byteOrder := rfl
@[simp] theorem goTo_map (s : State) (t : Word) : (goTo s t).map = s.map := rfl
@[simp] theorem goTo_haltPc (s : State) (t : Word) : (goTo s t).haltPc = s.haltPc := rfl

@[simp] theorem endRun_x (s : State) : (endRun s).x = s.x := rfl
@[simp] theorem endRun_pc (s : State) : (endRun s).pc = s.pc := rfl
@[simp] theorem endRun_mem (s : State) : (endRun s).mem = s.mem := rfl
@[simp] theorem endRun_status (s : State) : (endRun s).status = .ended := rfl
@[simp] theorem endRun_byteOrder (s : State) : (endRun s).byteOrder = s.byteOrder := rfl
@[simp] theorem endRun_map (s : State) : (endRun s).map = s.map := rfl
@[simp] theorem endRun_haltPc (s : State) : (endRun s).haltPc = s.haltPc := rfl

theorem writeReg_zero (s : State) (v : Word) : writeReg s 0#5 v = s := rfl
@[simp] theorem writeReg_pc (s : State) (r : Reg) (v : Word) : (writeReg s r v).pc = s.pc := by
  unfold writeReg; split <;> rfl
@[simp] theorem writeReg_mem (s : State) (r : Reg) (v : Word) : (writeReg s r v).mem = s.mem := by
  unfold writeReg; split <;> rfl
@[simp] theorem writeReg_status (s : State) (r : Reg) (v : Word) : (writeReg s r v).status = s.status := by
  unfold writeReg; split <;> rfl
@[simp] theorem writeReg_byteOrder (s : State) (r : Reg) (v : Word) : (writeReg s r v).byteOrder = s.byteOrder := by
  unfold writeReg; split <;> rfl
@[simp] theorem writeReg_map (s : State) (r : Reg) (v : Word) : (writeReg s r v).map = s.map := by
  unfold writeReg; split <;> rfl
@[simp] theorem writeReg_haltPc (s : State) (r : Reg) (v : Word) : (writeReg s r v).haltPc = s.haltPc := by
  unfold writeReg; split <;> rfl

@[simp] theorem placeWord_x (s : State) (w : Word) : (placeWord s w).x = s.x := rfl
@[simp] theorem placeWord_pc (s : State) (w : Word) : (placeWord s w).pc = placeAddr s := rfl
@[simp] theorem placeWord_mem (s : State) (w : Word) :
    (placeWord s w).mem = putBytes s.mem (placeAddr s) (storedByte s.byteOrder .word w) 4 := rfl
@[simp] theorem placeWord_status (s : State) (w : Word) : (placeWord s w).status = .running := rfl
@[simp] theorem placeWord_byteOrder (s : State) (w : Word) : (placeWord s w).byteOrder = s.byteOrder := rfl

end Sys2Proof.Machine
end

