-- ==== Sys2Proof/Laws/Registers.lean ====
section
/-! SUPPORT. What reading a register after an update gives. -/

namespace Sys2Proof.Machine

@[simp] theorem readReg_zero (s : State) : readReg s 0#5 = 0#32 := rfl

/-- A register read depends on the register file alone. -/
theorem readReg_of_x {s t : State} (h : t.x = s.x) (r : Reg) : readReg t r = readReg s r := by
  unfold readReg; simp only [h]

@[simp] theorem readReg_advance (s : State) (r : Reg) : readReg (advance s) r = readReg s r := readReg_of_x rfl r
@[simp] theorem readReg_endRun (s : State) (r : Reg) : readReg (endRun s) r = readReg s r := readReg_of_x rfl r
@[simp] theorem readReg_goTo (s : State) (t : Word) (r : Reg) : readReg (goTo s t) r = readReg s r := readReg_of_x rfl r
@[simp] theorem readReg_withMem (s : State) (m : Memory) (r : Reg) : readReg { s with mem := m } r = readReg s r := rfl
@[simp] theorem readReg_withStatus (s : State) (st : RunStatus) (r : Reg) :
    readReg { s with status := st } r = readReg s r := rfl

theorem regIndex_ne {r q : Reg} (hr : r ≠ 0#5) (hq : q ≠ 0#5) (h : r ≠ q) : r.toNat - 1 ≠ q.toNat - 1 := by
  bv_omega

/-- Read after write: x0 stays 0, the register written holds the value, every other is as before. -/
theorem readReg_writeReg (s : State) (q r : Reg) (v : Word) :
    readReg (writeReg s q v) r = if r = 0#5 then 0#32 else if r = q then v else readReg s r := by
  unfold readReg writeReg
  by_cases hr : r = 0#5
  · simp [hr]
  by_cases hq : q = 0#5
  · subst hq; simp [hr]
  by_cases h : r = q
  · subst h; simp [hr]
  · have := regIndex_ne hq hr (Ne.symm h)
    simp [hr, hq, h, Vector.getElem_set_ne _ _ this]

end Sys2Proof.Machine
end

