-- ==== Sys2Proof/Laws/Memory.lean ====
section
/-! SUPPORT. Memory as a list of bytes: read after write, and the canonical form is kept. -/

namespace Sys2Proof.Machine

@[simp] theorem memByte_nil (a : Nat) : memByte [] a = Config.unlistedByte := rfl

theorem memByte_memErase (m : Memory) (a k : Nat) :
    memByte (memErase m a) k = if k = a then Config.unlistedByte else memByte m k := by
  induction m with
  | nil => simp [memErase, memByte]
  | cons c m ih =>
    obtain ⟨q, d⟩ := c
    simp only [memErase]
    split
    · rename_i h; subst h
      rw [ih]
      by_cases hk : k = q
      · simp [hk]
      · simp [hk, memByte, Ne.symm hk]
    · rename_i h
      simp only [memByte, ih]
      by_cases hk : k = a
      · subst hk; simp [h]
      · simp [hk]

theorem memByte_memInsert {m : Memory} {a : Nat} (b : Byte) (h : memByte m a = Config.unlistedByte)
    (hm : ∀ c ∈ m, c.1 ≠ a) (k : Nat) : memByte (memInsert m a b) k = if k = a then b else memByte m k := by
  induction m with
  | nil => simp [memInsert, memByte, eq_comm]
  | cons c m ih =>
    obtain ⟨q, d⟩ := c
    have hq : q ≠ a := hm (q, d) (by simp)
    simp only [memInsert]
    split
    · by_cases hk : k = a
      · simp [memByte, hk]
      · simp [memByte, hk, Ne.symm hk]
    · have h' : memByte m a = Config.unlistedByte := by simpa [memByte, hq] using h
      simp only [memByte, ih h' (fun c hc => hm c (by simp [hc]))]
      by_cases hk : k = a
      · subst hk; simp [hq]
      · simp [hk]

theorem memErase_ne (m : Memory) (a : Nat) : ∀ c ∈ memErase m a, c.1 ≠ a := by
  induction m with
  | nil => simp [memErase]
  | cons c m ih =>
    obtain ⟨q, d⟩ := c
    simp only [memErase]
    split
    · exact ih
    · rename_i h
      intro c hc
      rcases List.mem_cons.1 hc with rfl | hc
      · exact h
      · exact ih c hc

/-- Read after write of one byte, in any memory. -/
theorem memByte_memPut (m : Memory) (a k : Nat) (b : Byte) :
    memByte (memPut m a b) k = if k = a then b else memByte m k := by
  unfold memPut
  split
  · rename_i h; subst h; exact memByte_memErase m a k
  · rw [memByte_memInsert b (by simp [memByte_memErase]) (memErase_ne m a), memByte_memErase]
    by_cases hk : k = a <;> simp [hk]

theorem memWfFrom_mono {lo hi : Nat} {m : Memory} (h : memWfFrom hi m = true) (hl : lo ≤ hi) : memWfFrom lo m = true := by
  cases m with
  | nil => rfl
  | cons c m => simp only [memWfFrom, Bool.and_eq_true, decide_eq_true_eq] at h ⊢; exact ⟨⟨⟨by omega, h.1.1.2⟩, h.1.2⟩, h.2⟩

theorem memErase_wf {m : Memory} {lo : Nat} (a : Nat) (h : memWfFrom lo m = true) : memWfFrom lo (memErase m a) = true := by
  induction m generalizing lo with
  | nil => rfl
  | cons c m ih =>
    obtain ⟨q, d⟩ := c
    simp only [memWfFrom, Bool.and_eq_true, decide_eq_true_eq] at h
    simp only [memErase]
    split
    · exact memWfFrom_mono (ih h.2) (by omega)
    · simp only [memWfFrom, Bool.and_eq_true, decide_eq_true_eq]
      exact ⟨h.1, ih h.2⟩

theorem memInsert_wf {m : Memory} {lo a : Nat} {b : Byte} (h : memWfFrom lo m = true) (hm : ∀ c ∈ m, c.1 ≠ a)
    (hlo : lo ≤ a) (ha : a < 2 ^ 32) (hb : b ≠ Config.unlistedByte) : memWfFrom lo (memInsert m a b) = true := by
  induction m generalizing lo with
  | nil => simpa [memInsert, memWfFrom, hlo, hb] using ha
  | cons c m ih =>
    obtain ⟨q, d⟩ := c
    have hq : q ≠ a := hm (q, d) (by simp)
    simp only [memWfFrom, Bool.and_eq_true, decide_eq_true_eq] at h
    simp only [memInsert]
    split
    · simp only [memWfFrom, Bool.and_eq_true, decide_eq_true_eq]
      exact ⟨⟨⟨hlo, ha⟩, hb⟩, ⟨⟨by omega, h.1.1.2⟩, h.1.2⟩, h.2⟩
    · simp only [memWfFrom, Bool.and_eq_true, decide_eq_true_eq]
      exact ⟨h.1, ih h.2 (fun c hc => hm c (by simp [hc])) (by omega)⟩

/-- A write of one byte keeps the canonical form. -/
theorem memPut_wf {m : Memory} {a : Nat} (b : Byte) (ha : a < 2 ^ 32) (h : Memory.wf m = true) :
    Memory.wf (memPut m a b) = true := by
  unfold memPut
  split
  · exact memErase_wf a h
  · exact memInsert_wf (memErase_wf a h) (memErase_ne m a) (Nat.zero_le a) ha ‹_›

/-- A write of several bytes keeps the canonical form. -/
theorem putBytes_wf {m : Memory} (a : Word) (b : Nat → Byte) (n : Nat) (h : Memory.wf m = true) :
    Memory.wf (putBytes m a b n) = true := by
  induction n with
  | zero => exact h
  | succ n ih => exact memPut_wf _ (addrPlus a n).isLt ih

theorem addrPlus_toNat (a : Word) (i : Nat) : (addrPlus a i).toNat = (a.toNat + i) % 2 ^ 32 := by
  simp [addrPlus, BitVec.toNat_add]

theorem addrPlus_inj {a : Word} {i j : Nat} (hi : i < 2 ^ 32) (hj : j < 2 ^ 32) (h : addrPlus a i = addrPlus a j) : i = j := by
  have h := congrArg BitVec.toNat h
  rw [addrPlus_toNat, addrPlus_toNat] at h
  have := a.isLt
  omega

/-- A byte outside the bytes written reads as before. -/
theorem memByte_putBytes_other {m : Memory} {a : Word} {b : Nat → Byte} {n : Nat} {k : Word}
    (h : ∀ i, i < n → k ≠ addrPlus a i) : memByte (putBytes m a b n) k.toNat = memByte m k.toNat := by
  induction n with
  | zero => rfl
  | succ n ih =>
    rw [putBytes, memByte_memPut, if_neg, ih (fun i hi => h i (by omega))]
    exact fun e => h n (by omega) (BitVec.eq_of_toNat_eq e)

/-- A byte written reads as what was written. -/
theorem memByte_putBytes_same {m : Memory} {a : Word} {b : Nat → Byte} {n i : Nat} (hn : n ≤ 2 ^ 32) (hi : i < n) :
    memByte (putBytes m a b n) (addrPlus a i).toNat = b i := by
  induction n with
  | zero => omega
  | succ n ih =>
    rw [putBytes, memByte_memPut]
    by_cases h : i = n
    · subst h; simp
    · rw [if_neg, ih (by omega) (by omega)]
      exact fun e => h (addrPlus_inj (by omega) (by omega) (BitVec.eq_of_toNat_eq e))

/-- A byte read depends on the memory alone. -/
theorem byteAt_of_mem {s t : State} (h : t.mem = s.mem) (a : Word) : byteAt t a = byteAt s a := by
  unfold byteAt; rw [h]

@[simp] theorem byteAt_advance (s : State) (a : Word) : byteAt (advance s) a = byteAt s a := rfl
@[simp] theorem byteAt_endRun (s : State) (a : Word) : byteAt (endRun s) a = byteAt s a := rfl
@[simp] theorem byteAt_writeReg (s : State) (r : Reg) (v : Word) (a : Word) : byteAt (writeReg s r v) a = byteAt s a :=
  byteAt_of_mem (writeReg_mem s r v) a
@[simp] theorem byteAt_goTo (s : State) (t a : Word) : byteAt (goTo s t) a = byteAt s a := rfl
@[simp] theorem byteAt_withStatus (s : State) (st : RunStatus) (a : Word) : byteAt { s with status := st } a = byteAt s a := rfl

end Sys2Proof.Machine
end

