-- ==== Sys2Proof/Laws/Access.lean ====
section
/-! SUPPORT. One lemma per shared operation that says all it can do: the accesses, the ends of an
instruction, and what loads, stores, jumps and branches make of them. -/

namespace Sys2Proof.Machine

theorem misaligned_eq_false {n : Nat} {a : Word} : misaligned n a = false ↔ a.toNat % n = 0 := by simp [misaligned]

theorem misaligned_eq_true {n : Nat} {a : Word} : misaligned n a = true ↔ a.toNat % n ≠ 0 := by simp [misaligned]

theorem allBytes_eq_true {n : Nat} {a : Word} {ok : Word → Bool} :
    allBytes n a ok = true ↔ ∀ i, i < n → ok (addrPlus a i) = true := by simp [allBytes]

/-- All that a data read can answer (20_memory.md R59). -/
theorem memRead_cases (s : State) (a : Word) (w : Width) :
    (a.toNat % w.bytes ≠ 0 ∧ memRead s a w = .error ⟨.loadAddressMisaligned, a⟩) ∨
    (a.toNat % w.bytes = 0 ∧ (¬ ∀ i, i < w.bytes → readable s.map (addrPlus a i) = true) ∧
      memRead s a w = .error ⟨.loadAccessFault, a⟩) ∨
    (a.toNat % w.bytes = 0 ∧ (∀ i, i < w.bytes → readable s.map (addrPlus a i) = true) ∧
      memRead s a w = .ok (assemble s.byteOrder (fun i => byteAt s (addrPlus a i)) w)) := by
  unfold memRead
  by_cases h : misaligned w.bytes a = true
  · exact .inl ⟨misaligned_eq_true.1 h, by simp [h]⟩
  · have h0 := misaligned_eq_false.1 (by simpa using h)
    by_cases h2 : allBytes w.bytes a (readable s.map) = true
    · exact .inr (.inr ⟨h0, allBytes_eq_true.1 h2, by simp [h, h2]⟩)
    · exact .inr (.inl ⟨h0, fun hh => h2 (allBytes_eq_true.2 hh), by simp [h, h2]⟩)

/-- All that a data write can answer (20_memory.md R60). -/
theorem memWrite_cases (s : State) (a : Word) (w : Width) (v : BitVec w.bits) :
    (a.toNat % w.bytes ≠ 0 ∧ memWrite s a w v = .error ⟨.storeAddressMisaligned, a⟩) ∨
    (a.toNat % w.bytes = 0 ∧ (¬ ∀ i, i < w.bytes → writable s.map (addrPlus a i) = true) ∧
      memWrite s a w v = .error ⟨.storeAccessFault, a⟩) ∨
    (a.toNat % w.bytes = 0 ∧ (∀ i, i < w.bytes → writable s.map (addrPlus a i) = true) ∧
      memWrite s a w v = .ok { s with mem := putBytes s.mem a (storedByte s.byteOrder w v) w.bytes }) := by
  unfold memWrite
  by_cases h : misaligned w.bytes a = true
  · exact .inl ⟨misaligned_eq_true.1 h, by simp [h]⟩
  · have h0 := misaligned_eq_false.1 (by simpa using h)
    by_cases h2 : allBytes w.bytes a (writable s.map) = true
    · exact .inr (.inr ⟨h0, allBytes_eq_true.1 h2, by simp [h, h2]⟩)
    · exact .inr (.inl ⟨h0, fun hh => h2 (allBytes_eq_true.2 hh), by simp [h, h2]⟩)

/-- All that a fetch can answer (20_memory.md R61). -/
theorem fetch_cases (s : State) (a : Word) :
    ((¬ ∀ i, i < 4 → executable s.map (addrPlus a i) = true) ∧ fetch s a = .error ⟨.instructionAccessFault, a⟩) ∨
    ((∀ i, i < 4 → executable s.map (addrPlus a i) = true) ∧
      fetch s a = .ok (assemble s.byteOrder (fun i => byteAt s (addrPlus a i)) .word)) := by
  unfold fetch
  by_cases h : allBytes 4 a (executable s.map) = true
  · exact .inr ⟨allBytes_eq_true.1 h, by simp [h]⟩
  · exact .inl ⟨fun hh => h (allBytes_eq_true.2 hh), by simp [h]⟩

/-- All that the end of a jump or taken branch can answer (42_control_transfer.md R140). -/
theorem transfer_cases (t : Word) (s s' : State) :
    (t.toNat % 4 = 0 ∧ transfer t s s' = .next (goTo s' t)) ∨
    (t.toNat % 4 ≠ 0 ∧ transfer t s s' = raise ⟨.instructionAddressMisaligned, t⟩ s) := by
  unfold transfer
  by_cases h : misaligned 4 t = true
  · exact .inr ⟨misaligned_eq_true.1 h, by simp [h]⟩
  · exact .inl ⟨misaligned_eq_false.1 (by simpa using h), by simp [h]⟩

/-- All that a branch can answer (42_control_transfer.md R143). -/
theorem branchIf_cases (c : Bool) (imm : Imm12) (s : State) :
    (c = false ∧ branchIf c imm s = .next (advance s)) ∨
    (c = true ∧ (branchTarget s imm).toNat % 4 = 0 ∧ branchIf c imm s = .next (goTo s (branchTarget s imm))) ∨
    (c = true ∧ (branchTarget s imm).toNat % 4 ≠ 0 ∧
      branchIf c imm s = raise ⟨.instructionAddressMisaligned, branchTarget s imm⟩ s) := by
  cases c with
  | false => exact .inl ⟨rfl, rfl⟩
  | true => rcases transfer_cases (branchTarget s imm) s s with ⟨h, e⟩ | ⟨h, e⟩
            · exact .inr (.inl ⟨rfl, h, e⟩)
            · exact .inr (.inr ⟨rfl, h, e⟩)

/-- All that JAL and JALR can answer once the target is known (42_control_transfer.md R141, R142). -/
theorem jumpAndLink_cases (rd : Reg) (t : Word) (s : State) :
    (t.toNat % 4 = 0 ∧ jumpAndLink rd t s = .next (goTo (writeReg s rd (s.pc + 4)) t)) ∨
    (t.toNat % 4 ≠ 0 ∧ jumpAndLink rd t s = raise ⟨.instructionAddressMisaligned, t⟩ s) :=
  transfer_cases t s (writeReg s rd (s.pc + 4))

/-- All that a load can answer: a completed load writes one register, any other raises. -/
theorem loadInto_cases (w : Width) (extend : BitVec w.bits → Word) (rd rs1 : Reg) (imm : Imm12) (s : State) :
    (∃ v, loadInto w extend rd rs1 imm s = .next (advance (writeReg s rd v))) ∨
    (∃ e, loadInto w extend rd rs1 imm s = raise e s) := by
  unfold loadInto
  rcases memRead_cases s (effectiveAddress s rs1 imm) w with ⟨-, h⟩ | ⟨-, -, h⟩ | ⟨-, -, h⟩ <;> rw [h]
  · exact .inr ⟨_, rfl⟩
  · exact .inr ⟨_, rfl⟩
  · exact .inl ⟨_, rfl⟩

/-- All that a store can answer: a completed store changes writable bytes only, any other raises. -/
theorem storeFrom_cases (w : Width) (rs2 rs1 : Reg) (imm : Imm12) (s : State) :
    ((∀ i, i < w.bytes → writable s.map (addrPlus (effectiveAddress s rs1 imm) i) = true) ∧
      storeFrom w rs2 rs1 imm s = .next (advance { s with
        mem := putBytes s.mem (effectiveAddress s rs1 imm)
          (storedByte s.byteOrder w ((readReg s rs2).setWidth w.bits)) w.bytes })) ∨
    (∃ e, storeFrom w rs2 rs1 imm s = raise e s) := by
  unfold storeFrom
  rcases memWrite_cases s (effectiveAddress s rs1 imm) w ((readReg s rs2).setWidth w.bits) with
    ⟨-, h⟩ | ⟨-, -, h⟩ | ⟨-, hw, h⟩ <;> rw [h]
  · exact .inr ⟨_, rfl⟩
  · exact .inr ⟨_, rfl⟩
  · exact .inl ⟨hw, rfl⟩

/-- Raising changes the run status and nothing else (60_exceptions.md R180). -/
theorem raise_next {e : Raised} {s t : State} (h : raise e s = .next t) : t = { s with status := .faulted e.cause e.info } := by
  simpa [raise, eq_comm] using h

end Sys2Proof.Machine
end

