-- ==== Sys2Proof/Laws/Encoding.lean ====
section
/-! SUPPORT. Each field of a word built by a format is what was put there (30_encoding.md R71 to R74). -/

namespace Sys2Proof

variable (f7 : BitVec 7) (rs2 rs1 rd : Reg) (f3 : BitVec 3) (op : BitVec 7) (imm : Imm12) (imm20 : Imm20)

/-- The bits of a word built by `packR`, from bit 0 upward. -/
theorem getLsbD_packR (i : Nat) : (packR f7 rs2 rs1 f3 rd op).getLsbD i =
    if i < 7 then op.getLsbD i else if i < 12 then rd.getLsbD (i - 7) else if i < 15 then f3.getLsbD (i - 12) else if i < 20 then rs1.getLsbD (i - 15) else if i < 25 then rs2.getLsbD (i - 20) else f7.getLsbD (i - 25) := by
  have h : (f7 ++ rs2 ++ rs1 ++ f3 ++ rd ++ op).getLsbD i =
      if i < 7 then op.getLsbD i else if i < 12 then rd.getLsbD (i - 7) else if i < 15 then f3.getLsbD (i - 12) else if i < 20 then rs1.getLsbD (i - 15) else if i < 25 then rs2.getLsbD (i - 20) else f7.getLsbD (i - 25) := by
    simp only [BitVec.getLsbD_append]
    grind
  exact h

@[simp] theorem opcodeOf_packR : opcodeOf (packR f7 rs2 rs1 f3 rd op) = op := by
  ext i hi; simp only [opcodeOf, BitVec.getElem_extractLsb', getLsbD_packR]; interval_cases i <;> rfl
@[simp] theorem rdOf_packR : rdOf (packR f7 rs2 rs1 f3 rd op) = rd := by
  ext i hi; simp only [rdOf, BitVec.getElem_extractLsb', getLsbD_packR]; interval_cases i <;> rfl
@[simp] theorem funct3Of_packR : funct3Of (packR f7 rs2 rs1 f3 rd op) = f3 := by
  ext i hi; simp only [funct3Of, BitVec.getElem_extractLsb', getLsbD_packR]; interval_cases i <;> rfl
@[simp] theorem rs1Of_packR : rs1Of (packR f7 rs2 rs1 f3 rd op) = rs1 := by
  ext i hi; simp only [rs1Of, BitVec.getElem_extractLsb', getLsbD_packR]; interval_cases i <;> rfl
@[simp] theorem rs2Of_packR : rs2Of (packR f7 rs2 rs1 f3 rd op) = rs2 := by
  ext i hi; simp only [rs2Of, BitVec.getElem_extractLsb', getLsbD_packR]; interval_cases i <;> rfl
@[simp] theorem shamtOf_packR : shamtOf (packR f7 rs2 rs1 f3 rd op) = rs2 := by
  ext i hi; simp only [shamtOf, BitVec.getElem_extractLsb', getLsbD_packR]; interval_cases i <;> rfl
@[simp] theorem funct7Of_packR : funct7Of (packR f7 rs2 rs1 f3 rd op) = f7 := by
  ext i hi; simp only [funct7Of, BitVec.getElem_extractLsb', getLsbD_packR]; interval_cases i <;> rfl

/-- The bits of a word built by `packI`, from bit 0 upward. -/
theorem getLsbD_packI (i : Nat) : (packI imm rs1 f3 rd op).getLsbD i =
    if i < 7 then op.getLsbD i else if i < 12 then rd.getLsbD (i - 7) else if i < 15 then f3.getLsbD (i - 12) else if i < 20 then rs1.getLsbD (i - 15) else imm.getLsbD (i - 20) := by
  have h : (imm ++ rs1 ++ f3 ++ rd ++ op).getLsbD i =
      if i < 7 then op.getLsbD i else if i < 12 then rd.getLsbD (i - 7) else if i < 15 then f3.getLsbD (i - 12) else if i < 20 then rs1.getLsbD (i - 15) else imm.getLsbD (i - 20) := by
    simp only [BitVec.getLsbD_append]
    grind
  exact h

@[simp] theorem opcodeOf_packI : opcodeOf (packI imm rs1 f3 rd op) = op := by
  ext i hi; simp only [opcodeOf, BitVec.getElem_extractLsb', getLsbD_packI]; interval_cases i <;> rfl
@[simp] theorem rdOf_packI : rdOf (packI imm rs1 f3 rd op) = rd := by
  ext i hi; simp only [rdOf, BitVec.getElem_extractLsb', getLsbD_packI]; interval_cases i <;> rfl
@[simp] theorem funct3Of_packI : funct3Of (packI imm rs1 f3 rd op) = f3 := by
  ext i hi; simp only [funct3Of, BitVec.getElem_extractLsb', getLsbD_packI]; interval_cases i <;> rfl
@[simp] theorem rs1Of_packI : rs1Of (packI imm rs1 f3 rd op) = rs1 := by
  ext i hi; simp only [rs1Of, BitVec.getElem_extractLsb', getLsbD_packI]; interval_cases i <;> rfl
@[simp] theorem imm12Of_packI : imm12Of (packI imm rs1 f3 rd op) = imm := by
  ext i hi; simp only [imm12Of, BitVec.getElem_extractLsb', getLsbD_packI]; interval_cases i <;> rfl

/-- The bits of a word built by `packS`, from bit 0 upward. -/
theorem getLsbD_packS (i : Nat) : (packS imm rs2 rs1 f3 op).getLsbD i =
    if i < 7 then op.getLsbD i else if i < 10 then f3.getLsbD (i - 7) else if i < 15 then rs1.getLsbD (i - 10) else if i < 20 then rs2.getLsbD (i - 15) else imm.getLsbD (i - 20) := by
  have h : (imm ++ rs2 ++ rs1 ++ f3 ++ op).getLsbD i =
      if i < 7 then op.getLsbD i else if i < 10 then f3.getLsbD (i - 7) else if i < 15 then rs1.getLsbD (i - 10) else if i < 20 then rs2.getLsbD (i - 15) else imm.getLsbD (i - 20) := by
    simp only [BitVec.getLsbD_append]
    grind
  exact h

@[simp] theorem opcodeOf_packS : opcodeOf (packS imm rs2 rs1 f3 op) = op := by
  ext i hi; simp only [opcodeOf, BitVec.getElem_extractLsb', getLsbD_packS]; interval_cases i <;> rfl
@[simp] theorem funct3OfS_packS : funct3OfS (packS imm rs2 rs1 f3 op) = f3 := by
  ext i hi; simp only [funct3OfS, BitVec.getElem_extractLsb', getLsbD_packS]; interval_cases i <;> rfl
@[simp] theorem rs1OfS_packS : rs1OfS (packS imm rs2 rs1 f3 op) = rs1 := by
  ext i hi; simp only [rs1OfS, BitVec.getElem_extractLsb', getLsbD_packS]; interval_cases i <;> rfl
@[simp] theorem rs2OfS_packS : rs2OfS (packS imm rs2 rs1 f3 op) = rs2 := by
  ext i hi; simp only [rs2OfS, BitVec.getElem_extractLsb', getLsbD_packS]; interval_cases i <;> rfl
@[simp] theorem imm12Of_packS : imm12Of (packS imm rs2 rs1 f3 op) = imm := by
  ext i hi; simp only [imm12Of, BitVec.getElem_extractLsb', getLsbD_packS]; interval_cases i <;> rfl

/-- The bits of a word built by `packU`, from bit 0 upward. -/
theorem getLsbD_packU (i : Nat) : (packU imm20 rd op).getLsbD i =
    if i < 7 then op.getLsbD i else if i < 12 then rd.getLsbD (i - 7) else imm20.getLsbD (i - 12) := by
  have h : (imm20 ++ rd ++ op).getLsbD i =
      if i < 7 then op.getLsbD i else if i < 12 then rd.getLsbD (i - 7) else imm20.getLsbD (i - 12) := by
    simp only [BitVec.getLsbD_append]
    grind
  exact h

@[simp] theorem opcodeOf_packU : opcodeOf (packU imm20 rd op) = op := by
  ext i hi; simp only [opcodeOf, BitVec.getElem_extractLsb', getLsbD_packU]; interval_cases i <;> rfl
@[simp] theorem rdOf_packU : rdOf (packU imm20 rd op) = rd := by
  ext i hi; simp only [rdOf, BitVec.getElem_extractLsb', getLsbD_packU]; interval_cases i <;> rfl
@[simp] theorem imm20Of_packU : imm20Of (packU imm20 rd op) = imm20 := by
  ext i hi; simp only [imm20Of, BitVec.getElem_extractLsb', getLsbD_packU]; interval_cases i <;> rfl

/-! ### A word is made of its fields -/

theorem packR_fields (w : Word) : packR (funct7Of w) (rs2Of w) (rs1Of w) (funct3Of w) (rdOf w) (opcodeOf w) = w := by
  refine BitVec.eq_of_getLsbD_eq fun i hi => ?_
  rw [getLsbD_packR]
  simp only [funct7Of, rs2Of, rs1Of, funct3Of, rdOf, opcodeOf, BitVec.getLsbD_extractLsb']
  interval_cases i <;> simp

theorem packI_fields (w : Word) : packI (imm12Of w) (rs1Of w) (funct3Of w) (rdOf w) (opcodeOf w) = w := by
  refine BitVec.eq_of_getLsbD_eq fun i hi => ?_
  rw [getLsbD_packI]
  simp only [imm12Of, rs1Of, funct3Of, rdOf, opcodeOf, BitVec.getLsbD_extractLsb']
  interval_cases i <;> simp

theorem packS_fields (w : Word) : packS (imm12Of w) (rs2OfS w) (rs1OfS w) (funct3OfS w) (opcodeOf w) = w := by
  refine BitVec.eq_of_getLsbD_eq fun i hi => ?_
  rw [getLsbD_packS]
  simp only [imm12Of, rs1OfS, rs2OfS, funct3OfS, opcodeOf, BitVec.getLsbD_extractLsb']
  interval_cases i <;> simp

theorem packU_fields (w : Word) : packU (imm20Of w) (rdOf w) (opcodeOf w) = w := by
  refine BitVec.eq_of_getLsbD_eq fun i hi => ?_
  rw [getLsbD_packU]
  simp only [imm20Of, rdOf, opcodeOf, BitVec.getLsbD_extractLsb']
  interval_cases i <;> simp

/-- A word is made of its bytes, in either byte order. -/
theorem wordOfBytes_byteOfWord (o : ByteOrder) (w : Word) :
    wordOfBytes o (byteOfWord o w 0) (byteOfWord o w 1) (byteOfWord o w 2) (byteOfWord o w 3) = w := by
  have h : (w.extractLsb' 24 8 ++ w.extractLsb' 16 8 ++ w.extractLsb' 8 8 ++ w.extractLsb' 0 8 :
      BitVec (8 + 8 + 8 + 8)) = w := by
    refine BitVec.eq_of_getLsbD_eq fun i hi => ?_
    have : i < 32 := hi
    simp only [BitVec.getLsbD_append, BitVec.getLsbD_extractLsb']
    interval_cases i <;> simp
  cases o <;> exact h

end Sys2Proof
end

