-- ==== Sys2Proof/Laws/Exec.lean ====
section
/-! SUPPORT. All that an instruction and a step can answer, said once: the inversion lemmas from which
statements about every instruction or every step follow without unfolding a meaning. -/

namespace Sys2Proof.Machine

/-- The ways an instruction can go on: by 4 with a register written, by 4 with nothing written, to a jump's target
with the link written, to a branch's target, or by 4 with bytes stored. -/
inductive GoesOn (i : Instr) (s : State) : State → Prop where
  | wrote (rd : Reg) (v : Word) (hd : i.dest = some rd) (ha : ∀ w rs1 imm, i.access ≠ some (true, w, rs1, imm)) :
      GoesOn i s (advance (writeReg s rd v))
  | passed (hd : i.dest = none) (ha : i.access = none) : GoesOn i s (advance s)
  | linked (rd : Reg) (t : Word) (hd : i.dest = some rd) (ha : i.access = none) (ht : t.toNat % 4 = 0) :
      GoesOn i s (goTo (writeReg s rd (s.pc + 4)) t)
  | branched (t : Word) (hd : i.dest = none) (ha : i.access = none) (ht : t.toNat % 4 = 0) :
      GoesOn i s (goTo s t)
  | stored (w : Width) (v : BitVec w.bits) (rs1 : Reg) (imm : Imm12) (hd : i.dest = none)
      (ha : i.access = some (true, w, rs1, imm))
      (hw : ∀ k, k < w.bytes → writable s.map (addrPlus (effectiveAddress s rs1 imm) k) = true) :
      GoesOn i s (advance { s with
        mem := putBytes s.mem (effectiveAddress s rs1 imm) (storedByte s.byteOrder w v) w.bytes })

theorem load_goesOn {i : Instr} {s : State} {w : Width} {extend : BitVec w.bits → Word} {rd rs1 : Reg} {imm : Imm12}
    (h : exec i s = loadInto w extend rd rs1 imm s) (hd : i.dest = some rd)
    (ha : ∀ w rs1 imm, i.access ≠ some (true, w, rs1, imm)) :
    (∃ t, exec i s = .next t ∧ GoesOn i s t) ∨ ∃ e, exec i s = raise e s := by
  rw [h]
  rcases loadInto_cases w extend rd rs1 imm s with ⟨v, h⟩ | h
  · exact .inl ⟨_, h, .wrote rd v hd ha⟩
  · exact .inr h

theorem store_goesOn {i : Instr} {s : State} {w : Width} {rs2 rs1 : Reg} {imm : Imm12}
    (h : exec i s = storeFrom w rs2 rs1 imm s) (hd : i.dest = none) (ha : i.access = some (true, w, rs1, imm)) :
    (∃ t, exec i s = .next t ∧ GoesOn i s t) ∨ ∃ e, exec i s = raise e s := by
  rw [h]
  rcases storeFrom_cases w rs2 rs1 imm s with ⟨hw, h⟩ | h
  · exact .inl ⟨_, h, .stored w _ rs1 imm hd ha hw⟩
  · exact .inr h

theorem branch_goesOn {i : Instr} {s : State} {c : Bool} {imm : Imm12}
    (h : exec i s = branchIf c imm s) (hd : i.dest = none) (ha : i.access = none) :
    (∃ t, exec i s = .next t ∧ GoesOn i s t) ∨ ∃ e, exec i s = raise e s := by
  rw [h]
  rcases branchIf_cases c imm s with ⟨-, h⟩ | ⟨-, ht, h⟩ | ⟨-, -, h⟩
  · exact .inl ⟨_, h, .passed hd ha⟩
  · exact .inl ⟨_, h, .branched _ hd ha ht⟩
  · exact .inr ⟨_, h⟩

theorem jump_goesOn {i : Instr} {s : State} {rd : Reg} {t : Word}
    (h : exec i s = jumpAndLink rd t s) (hd : i.dest = some rd) (ha : i.access = none) :
    (∃ t, exec i s = .next t ∧ GoesOn i s t) ∨ ∃ e, exec i s = raise e s := by
  rw [h]
  rcases jumpAndLink_cases rd t s with ⟨ht, h⟩ | ⟨-, h⟩
  · exact .inl ⟨_, h, .linked rd t hd ha ht⟩
  · exact .inr ⟨_, h⟩

/-- Every instruction goes on in one of the five ways, or raises. -/
theorem exec_cases (i : Instr) (s : State) :
    (∃ t, exec i s = .next t ∧ GoesOn i s t) ∨ ∃ e, exec i s = raise e s := by
  cases i
  case jal | jalr => exact jump_goesOn rfl rfl rfl
  case beq | bne | blt | bltu | bge | bgeu => exact branch_goesOn rfl rfl rfl
  case lw | lh | lhu | lb | lbu => exact load_goesOn rfl rfl (fun _ _ _ h => by cases h)
  case sw | sh | sb => exact store_goesOn rfl rfl rfl
  all_goals exact .inl ⟨_, rfl, .wrote _ _ rfl (fun _ _ _ h => by cases h)⟩

/-- Reading an instruction at a misaligned pc (10_state.md R36, item 2). -/
theorem fetchInstr_misaligned {s : State} (h : s.pc.toNat % 4 ≠ 0) :
    fetchInstr s = .error ⟨.instructionAddressMisaligned, s.pc⟩ := by
  simp [fetchInstr, misaligned_eq_true.2 h]

/-- Reading an instruction at an aligned pc where a byte is not executable (10_state.md R36, item 3). -/
theorem fetchInstr_notExecutable {s : State} (h : s.pc.toNat % 4 = 0)
    (hx : ¬ ∀ k, k < 4 → executable s.map (addrPlus s.pc k) = true) :
    fetchInstr s = .error ⟨.instructionAccessFault, s.pc⟩ := by
  rcases fetch_cases s s.pc with ⟨-, hf⟩ | ⟨hx', -⟩
  · simp [fetchInstr, misaligned_eq_false.2 h, hf]
  · exact absurd hx' hx

/-- Reading an instruction from four executable bytes that decode (10_state.md R36, item 4). -/
theorem fetchInstr_decoded {s : State} {i : Instr} (h : s.pc.toNat % 4 = 0)
    (hx : ∀ k, k < 4 → executable s.map (addrPlus s.pc k) = true)
    (hd : decode (assemble s.byteOrder (fun k => byteAt s (addrPlus s.pc k)) .word) = .ok i) : fetchInstr s = .ok i := by
  rcases fetch_cases s s.pc with ⟨hx', -⟩ | ⟨-, hf⟩
  · exact absurd hx hx'
  · simp only [fetchInstr, misaligned_eq_false.2 h, hf, hd, Bool.false_eq_true, if_false]

/-- Reading an illegal word from four executable bytes (10_state.md R36, item 4). -/
theorem fetchInstr_illegal {s : State} {e : Illegal} (h : s.pc.toNat % 4 = 0)
    (hx : ∀ k, k < 4 → executable s.map (addrPlus s.pc k) = true)
    (hd : decode (assemble s.byteOrder (fun k => byteAt s (addrPlus s.pc k)) .word) = .error e) :
    fetchInstr s = .error ⟨.illegalInstruction, assemble s.byteOrder (fun k => byteAt s (addrPlus s.pc k)) .word⟩ := by
  rcases fetch_cases s s.pc with ⟨hx', -⟩ | ⟨-, hf⟩
  · exact absurd hx hx'
  · simp only [fetchInstr, misaligned_eq_false.2 h, hf, hd, Bool.false_eq_true, if_false]

/-- A step of a running state that is not at `HALT_PC` and whose fetch or decoding raises (10_state.md R36). -/
theorem step_of_fetch_error {s : State} {e : Raised} (h : s.status = .running) (hp : s.pc ≠ s.haltPc)
    (hf : fetchInstr s = .error e) : step s = raise e s := by
  have : atHalt s = false := by simp [atHalt, hp]
  simp only [step, h, this, hf, Bool.false_eq_true, if_false]

/-- A step of a running state that is not at `HALT_PC` and that fetches an instruction (10_state.md R36). -/
theorem step_of_fetch_ok {s : State} {i : Instr} (h : s.status = .running) (hp : s.pc ≠ s.haltPc)
    (hf : fetchInstr s = .ok i) : step s = exec i s := by
  have : atHalt s = false := by simp [atHalt, hp]
  simp only [step, h, this, hf, Bool.false_eq_true, if_false]

/-- A step at `HALT_PC` (70_reset_and_hazards.md R205). -/
theorem step_atHalt {s : State} (h : s.status = .running) (hp : s.pc = s.haltPc) : step s = .next (endRun s) := by
  simp [step, h, atHalt, hp]

theorem step_ended {s : State} (h : s.status = .ended) : step s = .next s := by simp only [step, h]

theorem step_faulted {s : State} {e : Cause} {info : Word} (h : s.status = .faulted e info) :
    step s = .fault (.stopped e info) := by simp only [step, h]

theorem reaches_zero {s t : State} : Reaches 0 s t ↔ t = s := by
  constructor
  · intro h; injection h with h; exact h.symm
  · rintro rfl; rfl

/-- A run of one step more is a step and then the run. -/
theorem reaches_succ {n : Nat} {s t : State} : Reaches (n + 1) s t ↔ ∃ u, step s = .next u ∧ Reaches n u t := by
  unfold Reaches
  have e := Host.Core.run.eq_def Sys2Proof.core (n + 1) s
  rw [e]
  dsimp only
  cases h : step s with
  | next u =>
    rw [show Sys2Proof.core.step s = .next u from h]
    exact ⟨fun h => ⟨u, rfl, h⟩, fun ⟨v, hv, h⟩ => by injection hv with hv; subst hv; exact h⟩
  | fault r =>
    rw [show Sys2Proof.core.step s = .fault r from h]
    exact ⟨fun h => (by cases h), fun ⟨_, hv, _⟩ => (by cases hv)⟩
  | refused r =>
    rw [show Sys2Proof.core.step s = .refused r from h]
    exact ⟨fun h => (by cases h), fun ⟨_, hv, _⟩ => (by cases hv)⟩

/-- All that a step which answers a next state can be. -/
theorem step_cases {s t : State} (h : step s = .next t) :
    (s.status = .ended ∧ t = s) ∨
    (s.status = .running ∧ s.pc = s.haltPc ∧ t = endRun s) ∨
    (s.status = .running ∧ s.pc ≠ s.haltPc ∧ ∃ i, fetchInstr s = .ok i ∧ exec i s = .next t ∧ GoesOn i s t) ∨
    (s.status = .running ∧ s.pc ≠ s.haltPc ∧ ∃ e : Raised, t = { s with status := .faulted e.cause e.info }) := by
  cases hs : s.status with
  | ended => rw [step_ended hs] at h; injection h with h; exact .inl ⟨rfl, h.symm⟩
  | faulted e info => rw [step_faulted hs] at h; cases h
  | running =>
    by_cases hh : s.pc = s.haltPc
    · rw [step_atHalt hs hh] at h; injection h with h; exact .inr (.inl ⟨rfl, hh, h.symm⟩)
    · cases hf : fetchInstr s with
      | error e => rw [step_of_fetch_error hs hh hf] at h; exact .inr (.inr (.inr ⟨rfl, hh, e, raise_next h⟩))
      | ok i =>
        rw [step_of_fetch_ok hs hh hf] at h
        rcases exec_cases i s with ⟨u, hu, hg⟩ | ⟨e, he⟩
        · rw [hu] at h; injection h with h; subst h
          exact .inr (.inr (.inl ⟨rfl, hh, i, rfl, hu, hg⟩))
        · exact .inr (.inr (.inr ⟨rfl, hh, e, raise_next (he.symm.trans h)⟩))

end Sys2Proof.Machine
end

