-- ==== Sys2Proof/Laws/Launch.lean ====
section
/-! SUPPORT. What the memory of a launch holds, and why a condition on every address need be asked only where it
can change. -/

namespace Sys2Proof.Machine

/-! ### The memory of a launch -/

theorem initMemory_wf (cells : List (Word × Byte)) : Memory.wf (initMemory cells) = true := by
  induction cells with
  | nil => rfl
  | cons c cells ih => exact memPut_wf _ c.1.isLt ih

/-- The memory of a launch holds the listed bytes, and reads as unlisted elsewhere. -/
theorem memByte_initMemory (cells : List (Word × Byte)) (a : Word) :
    memByte (initMemory cells) a.toNat = (initCell cells a).getD Config.unlistedByte := by
  induction cells with
  | nil => rfl
  | cons c cells ih =>
    obtain ⟨k, b⟩ := c
    rw [initMemory, memByte_memPut, initCell, ih]
    by_cases h : k = a
    · subst h; simp
    · rw [if_neg h, if_neg fun e => h (BitVec.eq_of_toNat_eq e.symm)]

/-- All that the initial byte of an address can be. -/
theorem initByte_cases (p : Launch) (a : Word) :
    (∃ b, initCell p.initMem a = some b ∧ initByte p a = some b) ∨
    (initCell p.initMem a = none ∧ p.blank.any (fun g => spanHolds g.base g.size a) = true ∧
      initByte p a = some Config.unlistedByte) ∨
    (initCell p.initMem a = none ∧ p.blank.any (fun g => spanHolds g.base g.size a) = false ∧ initByte p a = none) := by
  unfold initByte
  cases hc : initCell p.initMem a with
  | some b => exact .inl ⟨b, rfl, rfl⟩
  | none =>
    cases hb : p.blank.any (fun g => spanHolds g.base g.size a) with
    | true => exact .inr (.inl ⟨rfl, rfl, rfl⟩)
    | false => exact .inr (.inr ⟨rfl, rfl, rfl⟩)

/-! ### Where a condition can change -/

theorem spanHolds_eq_true {base a : Word} {size : Nat} :
    spanHolds base size a = true ↔ base.toNat ≤ a.toNat ∧ a.toNat < base.toNat + size := by
  simp only [spanHolds, Bool.and_eq_true, decide_eq_true_eq]

theorem pred_toNat {a : Word} (h : a ≠ 0#32) : (a - 1#32).toNat = a.toNat - 1 := by bv_omega

/-- A stretch that holds address 0 begins there. -/
theorem spanHolds_zero {base : Word} {size : Nat} (h : (0#32 : Word) ∉ spanBounds base size) :
    spanHolds base size 0#32 = false := by
  rw [Bool.eq_false_iff, Ne, spanHolds_eq_true]
  rintro ⟨hb, -⟩
  exact h (List.mem_cons.2 (.inl (by bv_omega)))

/-- Away from its bounds, a stretch holds an address exactly if it holds the one below. -/
theorem spanHolds_pred {base a : Word} {size : Nat} (h0 : a ≠ 0#32) (h : a ∉ spanBounds base size) :
    spanHolds base size a = spanHolds base size (a - 1#32) := by
  simp only [spanBounds, List.mem_cons, List.not_mem_nil, or_false, not_or] at h
  have h1 : a.toNat ≠ base.toNat := fun e => h.1 (BitVec.eq_of_toNat_eq e)
  have h2 : a.toNat ≠ (addrPlus base size).toNat := fun e => h.2 (BitVec.eq_of_toNat_eq e)
  rw [addrPlus_toNat] at h2
  have := a.isLt
  have := base.isLt
  rw [Bool.eq_iff_iff, spanHolds_eq_true, spanHolds_eq_true, pred_toNat h0]
  omega

/-- Away from the bounds of a map, the region that decides an address decides the one below. -/
theorem regionAt_pred {m : MemMap} {a : Word} (h0 : a ≠ 0#32) (h : a ∉ mapBounds m) :
    regionAt m a = regionAt m (a - 1#32) := by
  induction m with
  | nil => rfl
  | cons g m ih =>
    simp only [mapBounds, List.flatMap_cons, List.mem_append, not_or] at h
    have hg : regionHolds g a = regionHolds g (a - 1#32) := spanHolds_pred h0 h.1
    have hm : m.find? (regionHolds · a) = m.find? (regionHolds · (a - 1#32)) := ih h.2
    simp only [regionAt, List.find?_cons, hg, hm]

/-- No region decides address 0 unless a bound is there. -/
theorem regionAt_zero {m : MemMap} (h : (0#32 : Word) ∉ mapBounds m) : regionAt m 0#32 = none := by
  rw [regionAt, List.find?_eq_none]
  intro g hg
  have : (0#32 : Word) ∉ spanBounds g.base g.size := fun hb => h (List.mem_flatMap.2 ⟨g, hg, hb⟩)
  simp [regionHolds, spanHolds_zero this]

/-- Away from the bounds of `INIT_MEM`, an address that lacks an initial byte follows one that lacks it. -/
theorem initByte_pred_none {p : Launch} {a : Word} (h0 : a ≠ 0#32) (h : a ∉ initBounds p) (hn : initByte p a = none) :
    initByte p (a - 1#32) = none := by
  simp only [initBounds, List.mem_append, not_or] at h
  have hcell : ∀ cells : List (Word × Byte), a ∉ (cells.flatMap fun c => spanBounds c.1 1) →
      initCell cells (a - 1#32) = none := by
    intro cells
    induction cells with
    | nil => intro; rfl
    | cons c cells ih =>
      obtain ⟨k, b⟩ := c
      simp only [List.flatMap_cons, List.mem_append, not_or]
      rintro ⟨hk, hc⟩
      have hne : k ≠ a - 1#32 := by
        rintro rfl
        exact hk (by simp [spanBounds, addrPlus])
      rw [initCell, if_neg hne, ih hc]
  have hblank : p.blank.any (fun g => spanHolds g.base g.size (a - 1#32)) =
      p.blank.any (fun g => spanHolds g.base g.size a) := by
    rw [Bool.eq_iff_iff, List.any_eq_true, List.any_eq_true]
    have hstep : ∀ g ∈ p.blank, spanHolds g.base g.size a = spanHolds g.base g.size (a - 1#32) := fun g hg =>
      spanHolds_pred h0 fun hb => h.2 (List.mem_flatMap.2 ⟨g, hg, hb⟩)
    exact ⟨fun ⟨g, hg, e⟩ => ⟨g, hg, (hstep g hg).trans e⟩, fun ⟨g, hg, e⟩ => ⟨g, hg, (hstep g hg).symm.trans e⟩⟩
  rcases initByte_cases p a with ⟨b, -, e⟩ | ⟨-, -, e⟩ | ⟨-, hb, -⟩
  · rw [hn] at e; cases e
  · rw [hn] at e; cases e
  · rw [initByte, hcell _ h.1, hblank, hb]; rfl

/-- A condition that fails at address 0 only on a bound, and that away from the bounds passes from an address to the one
below, holds somewhere exactly if it holds on a bound. -/
theorem any_bounds {bounds : List Word} {bad : Word → Bool} (hz : (0#32 : Word) ∉ bounds → bad 0#32 = false)
    (hp : ∀ a, a ≠ 0#32 → a ∉ bounds → bad a = true → bad (a - 1#32) = true) :
    bounds.any bad = true ↔ ∃ a, bad a = true := by
  rw [List.any_eq_true]
  refine ⟨fun ⟨a, _, h⟩ => ⟨a, h⟩, fun ⟨a, h⟩ => ?_⟩
  induction hn : a.toNat using Nat.strong_induction_on generalizing a with
  | _ n ih =>
    by_cases hb : a ∈ bounds
    · exact ⟨a, hb, h⟩
    · by_cases h0 : a = 0#32
      · subst h0; rw [hz hb] at h; cases h
      · have hne : a.toNat ≠ 0 := fun e => h0 (BitVec.eq_of_toNat_eq e)
        exact ih _ (by omega) _ (hp a h0 hb h) (pred_toNat h0)

end Sys2Proof.Machine
end

