-- ==== Sys2Proof/Laws/PerInstr.lean ====
section
/-! SUPPORT. The family `EncodesRow` of LAWS.json: the word the encoder writes has the fixed bits of its
instruction's row of the opcode table (30_encoding.md R84). -/

namespace Sys2Proof.Laws

theorem packR_fixed (f7 : BitVec 7) (rs2 rs1 rd : Reg) (f3 : BitVec 3) (op : BitVec 7) :
    packR f7 rs2 rs1 f3 rd op &&& 0xFE00707F#32 = packR f7 0#5 0#5 f3 0#5 op := by
  refine BitVec.eq_of_getLsbD_eq fun i hi => ?_
  rw [BitVec.getLsbD_and, getLsbD_packR, getLsbD_packR]
  interval_cases i <;> simp

theorem packI_fixed (imm : Imm12) (rs1 rd : Reg) (f3 : BitVec 3) (op : BitVec 7) :
    packI imm rs1 f3 rd op &&& 0x0000707F#32 = packI 0#12 0#5 f3 0#5 op := by
  refine BitVec.eq_of_getLsbD_eq fun i hi => ?_
  rw [BitVec.getLsbD_and, getLsbD_packI, getLsbD_packI]
  interval_cases i <;> simp

theorem packS_fixed (imm : Imm12) (rs2 rs1 : Reg) (f3 : BitVec 3) (op : BitVec 7) :
    packS imm rs2 rs1 f3 op &&& 0x000003FF#32 = packS 0#12 0#5 0#5 f3 op := by
  refine BitVec.eq_of_getLsbD_eq fun i hi => ?_
  rw [BitVec.getLsbD_and, getLsbD_packS, getLsbD_packS]
  interval_cases i <;> simp

theorem packU_fixed (imm20 : Imm20) (rd : Reg) (op : BitVec 7) :
    packU imm20 rd op &&& 0x0000007F#32 = packU 0#20 0#5 op := by
  refine BitVec.eq_of_getLsbD_eq fun i hi => ?_
  rw [BitVec.getLsbD_and, getLsbD_packU, getLsbD_packU]
  interval_cases i <;> simp

/-- The fixed bits of the encoded word are those of the instruction's row. -/
def EncodesRow.Statement (i : Instr) : Prop := encode i &&& i.tableRow.mask = i.tableRow.bits

theorem EncodesRow.addi (rd : Reg) (rs1 : Reg) (imm : Imm12) : EncodesRow.Statement (.addi rd rs1 imm) :=
  (packI_fixed ..).trans rfl
theorem EncodesRow.slti (rd : Reg) (rs1 : Reg) (imm : Imm12) : EncodesRow.Statement (.slti rd rs1 imm) :=
  (packI_fixed ..).trans rfl
theorem EncodesRow.sltiu (rd : Reg) (rs1 : Reg) (imm : Imm12) : EncodesRow.Statement (.sltiu rd rs1 imm) :=
  (packI_fixed ..).trans rfl
theorem EncodesRow.andi (rd : Reg) (rs1 : Reg) (imm : Imm12) : EncodesRow.Statement (.andi rd rs1 imm) :=
  (packI_fixed ..).trans rfl
theorem EncodesRow.ori (rd : Reg) (rs1 : Reg) (imm : Imm12) : EncodesRow.Statement (.ori rd rs1 imm) :=
  (packI_fixed ..).trans rfl
theorem EncodesRow.xori (rd : Reg) (rs1 : Reg) (imm : Imm12) : EncodesRow.Statement (.xori rd rs1 imm) :=
  (packI_fixed ..).trans rfl
theorem EncodesRow.slli (rd : Reg) (rs1 : Reg) (shamt : Shamt) : EncodesRow.Statement (.slli rd rs1 shamt) :=
  (packR_fixed ..).trans rfl
theorem EncodesRow.srli (rd : Reg) (rs1 : Reg) (shamt : Shamt) : EncodesRow.Statement (.srli rd rs1 shamt) :=
  (packR_fixed ..).trans rfl
theorem EncodesRow.srai (rd : Reg) (rs1 : Reg) (shamt : Shamt) : EncodesRow.Statement (.srai rd rs1 shamt) :=
  (packR_fixed ..).trans rfl
theorem EncodesRow.lui (rd : Reg) (imm : Imm20) : EncodesRow.Statement (.lui rd imm) :=
  (packU_fixed ..).trans rfl
theorem EncodesRow.auipc (rd : Reg) (imm : Imm20) : EncodesRow.Statement (.auipc rd imm) :=
  (packU_fixed ..).trans rfl
theorem EncodesRow.add (rd : Reg) (rs1 : Reg) (rs2 : Reg) : EncodesRow.Statement (.add rd rs1 rs2) :=
  (packR_fixed ..).trans rfl
theorem EncodesRow.slt (rd : Reg) (rs1 : Reg) (rs2 : Reg) : EncodesRow.Statement (.slt rd rs1 rs2) :=
  (packR_fixed ..).trans rfl
theorem EncodesRow.sltu (rd : Reg) (rs1 : Reg) (rs2 : Reg) : EncodesRow.Statement (.sltu rd rs1 rs2) :=
  (packR_fixed ..).trans rfl
theorem EncodesRow.and (rd : Reg) (rs1 : Reg) (rs2 : Reg) : EncodesRow.Statement (.and rd rs1 rs2) :=
  (packR_fixed ..).trans rfl
theorem EncodesRow.or (rd : Reg) (rs1 : Reg) (rs2 : Reg) : EncodesRow.Statement (.or rd rs1 rs2) :=
  (packR_fixed ..).trans rfl
theorem EncodesRow.xor (rd : Reg) (rs1 : Reg) (rs2 : Reg) : EncodesRow.Statement (.xor rd rs1 rs2) :=
  (packR_fixed ..).trans rfl
theorem EncodesRow.sll (rd : Reg) (rs1 : Reg) (rs2 : Reg) : EncodesRow.Statement (.sll rd rs1 rs2) :=
  (packR_fixed ..).trans rfl
theorem EncodesRow.srl (rd : Reg) (rs1 : Reg) (rs2 : Reg) : EncodesRow.Statement (.srl rd rs1 rs2) :=
  (packR_fixed ..).trans rfl
theorem EncodesRow.sub (rd : Reg) (rs1 : Reg) (rs2 : Reg) : EncodesRow.Statement (.sub rd rs1 rs2) :=
  (packR_fixed ..).trans rfl
theorem EncodesRow.sra (rd : Reg) (rs1 : Reg) (rs2 : Reg) : EncodesRow.Statement (.sra rd rs1 rs2) :=
  (packR_fixed ..).trans rfl
theorem EncodesRow.jal (rd : Reg) (imm : Imm20) : EncodesRow.Statement (.jal rd imm) :=
  (packU_fixed ..).trans rfl
theorem EncodesRow.jalr (rd : Reg) (rs1 : Reg) (imm : Imm12) : EncodesRow.Statement (.jalr rd rs1 imm) :=
  (packI_fixed ..).trans rfl
theorem EncodesRow.beq (rs1 : Reg) (rs2 : Reg) (imm : Imm12) : EncodesRow.Statement (.beq rs1 rs2 imm) :=
  (packS_fixed ..).trans rfl
theorem EncodesRow.bne (rs1 : Reg) (rs2 : Reg) (imm : Imm12) : EncodesRow.Statement (.bne rs1 rs2 imm) :=
  (packS_fixed ..).trans rfl
theorem EncodesRow.blt (rs1 : Reg) (rs2 : Reg) (imm : Imm12) : EncodesRow.Statement (.blt rs1 rs2 imm) :=
  (packS_fixed ..).trans rfl
theorem EncodesRow.bltu (rs1 : Reg) (rs2 : Reg) (imm : Imm12) : EncodesRow.Statement (.bltu rs1 rs2 imm) :=
  (packS_fixed ..).trans rfl
theorem EncodesRow.bge (rs1 : Reg) (rs2 : Reg) (imm : Imm12) : EncodesRow.Statement (.bge rs1 rs2 imm) :=
  (packS_fixed ..).trans rfl
theorem EncodesRow.bgeu (rs1 : Reg) (rs2 : Reg) (imm : Imm12) : EncodesRow.Statement (.bgeu rs1 rs2 imm) :=
  (packS_fixed ..).trans rfl
theorem EncodesRow.lw (rd : Reg) (rs1 : Reg) (imm : Imm12) : EncodesRow.Statement (.lw rd rs1 imm) :=
  (packI_fixed ..).trans rfl
theorem EncodesRow.lh (rd : Reg) (rs1 : Reg) (imm : Imm12) : EncodesRow.Statement (.lh rd rs1 imm) :=
  (packI_fixed ..).trans rfl
theorem EncodesRow.lhu (rd : Reg) (rs1 : Reg) (imm : Imm12) : EncodesRow.Statement (.lhu rd rs1 imm) :=
  (packI_fixed ..).trans rfl
theorem EncodesRow.lb (rd : Reg) (rs1 : Reg) (imm : Imm12) : EncodesRow.Statement (.lb rd rs1 imm) :=
  (packI_fixed ..).trans rfl
theorem EncodesRow.lbu (rd : Reg) (rs1 : Reg) (imm : Imm12) : EncodesRow.Statement (.lbu rd rs1 imm) :=
  (packI_fixed ..).trans rfl
theorem EncodesRow.sw (rs2 : Reg) (rs1 : Reg) (imm : Imm12) : EncodesRow.Statement (.sw rs2 rs1 imm) :=
  (packS_fixed ..).trans rfl
theorem EncodesRow.sh (rs2 : Reg) (rs1 : Reg) (imm : Imm12) : EncodesRow.Statement (.sh rs2 rs1 imm) :=
  (packS_fixed ..).trans rfl
theorem EncodesRow.sb (rs2 : Reg) (rs1 : Reg) (imm : Imm12) : EncodesRow.Statement (.sb rs2 rs1 imm) :=
  (packS_fixed ..).trans rfl

end Sys2Proof.Laws
end

