-- ==== Sys2Proof/Laws/Values.lean ====
section
/-! SUPPORT. The operations on words as exact arithmetic reduced to 32 bits, the immediates as numbers, and the bytes
of an access as a number: what connects the meanings with the spec's arithmetic. -/

namespace Sys2Proof.Machine

/-! ### Arithmetic on words -/

theorem add_ofInt (x y : Word) : x + y = BitVec.ofInt 32 (x.toInt + y.toInt) := by
  apply BitVec.eq_of_toInt_eq; simp [BitVec.toInt_add]

theorem sub_ofInt (x y : Word) : x - y = BitVec.ofInt 32 (x.toInt - y.toInt) := by
  apply BitVec.eq_of_toInt_eq; simp [BitVec.toInt_sub]

theorem shiftLeft_ofNat (x : Word) (n : Nat) : x <<< n = BitVec.ofNat 32 (x.toNat * 2 ^ n) := by
  apply BitVec.eq_of_toNat_eq; simp [BitVec.toNat_shiftLeft, Nat.shiftLeft_eq]

theorem shiftRight_ofNat (x : Word) (n : Nat) : x >>> n = BitVec.ofNat 32 (x.toNat / 2 ^ n) := by
  apply BitVec.eq_of_toNat_eq
  simp only [BitVec.toNat_ushiftRight, Nat.shiftRight_eq_div_pow, BitVec.toNat_ofNat]
  rw [Nat.mod_eq_of_lt]; exact lt_of_le_of_lt (Nat.div_le_self _ _) x.isLt

theorem sshiftRight_ofInt (x : Word) (n : Nat) : x.sshiftRight n = BitVec.ofInt 32 (x.toInt.fdiv (2 ^ n)) := by
  rw [BitVec.sshiftRight, Int.shiftRight_eq_div_pow, Int.fdiv_eq_ediv_of_nonneg _ (by positivity)]
  simp

theorem clearBit0_ofNat (x : Word) : x &&& 0xFFFFFFFE#32 = BitVec.ofNat 32 (x.toNat / 2 * 2) := by
  have h : x &&& 0xFFFFFFFE#32 = (x >>> 1) <<< 1 := by
    refine BitVec.eq_of_getLsbD_eq fun k hk => ?_
    interval_cases k <;> simp
  rw [h, shiftLeft_ofNat, shiftRight_ofNat]
  apply BitVec.eq_of_toNat_eq
  simp

theorem boolWord_eq (c : Bool) : boolWord c = if c = true then 1 else 0 := rfl

/-! ### Immediates as numbers (30_encoding.md section 3) -/

theorem imm12_range (imm : Imm12) : -2048 ≤ imm.toInt ∧ imm.toInt ≤ 2047 := by
  have h1 := BitVec.le_toInt imm; have h2 := BitVec.toInt_lt (x := imm); norm_num at h1 h2; omega

theorem imm20_range (imm : Imm20) : -524288 ≤ imm.toInt ∧ imm.toInt ≤ 524287 := by
  have h1 := BitVec.le_toInt imm; have h2 := BitVec.toInt_lt (x := imm); norm_num at h1 h2; omega

theorem signExtend12_toInt (imm : Imm12) : (imm.signExtend 32).toInt = imm.toInt := by
  rw [BitVec.toInt_signExtend_of_le (by omega)]

theorem signExtend20_toInt (imm : Imm20) : (imm.signExtend 32).toInt = imm.toInt := by
  rw [BitVec.toInt_signExtend_of_le (by omega)]

theorem double_toInt (x : Word) (h : -1073741824 ≤ x.toInt ∧ x.toInt < 1073741824) : (x <<< 1).toInt = 2 * x.toInt := by
  rw [BitVec.toInt_shiftLeft, Nat.shiftLeft_eq]
  rw [BitVec.toInt_eq_toNat_cond] at h ⊢
  have := x.isLt
  rw [Int.bmod_def]
  split at h <;> simp_all <;> omega

theorem concat12_toNat (imm : Imm20) : (imm ++ (0 : BitVec 12)).toNat = imm.toNat * 4096 := by
  rw [BitVec.toNat_append]; simp [Nat.shiftLeft_eq]

/-! ### The bytes of an access as a number (20_memory.md R43, R59, R60) -/

theorem concat8_toNat (a b : Byte) : (a ++ b).toNat = a.toNat * 256 + b.toNat := by
  rw [BitVec.toNat_append, ← Nat.shiftLeft_add_eq_or_of_lt b.isLt, Nat.shiftLeft_eq]

theorem concat32_toNat (a b c d : Byte) :
    (a ++ b ++ c ++ d).toNat = ((a.toNat * 256 + b.toNat) * 256 + c.toNat) * 256 + d.toNat := by
  rw [BitVec.toNat_append, ← Nat.shiftLeft_add_eq_or_of_lt d.isLt, Nat.shiftLeft_eq, BitVec.toNat_append,
    ← Nat.shiftLeft_add_eq_or_of_lt c.isLt, Nat.shiftLeft_eq, concat8_toNat]

/-- What an access reads is the number its bytes make. -/
theorem assemble_toNat (s : State) (a : Word) (w : Width) :
    (assemble s.byteOrder (fun i => byteAt s (addrPlus a i)) w).toNat = accessNat s a w.bytes := by
  cases w <;> cases h : s.byteOrder <;>
    simp only [accessNat, assemble, h, wordOfBytes, Width.bytes, littleNat, bigNat]
  · simp
  · simp
  · refine (concat8_toNat _ _).trans ?_; ring
  · refine (concat8_toNat _ _).trans ?_; ring
  · refine (concat32_toNat _ _ _ _).trans ?_; ring
  · refine (concat32_toNat _ _ _ _).trans ?_; ring

theorem accessNat_one (s : State) (a : Word) : accessNat s a 1 = (byteAt s a).toNat := by
  simp only [accessNat, littleNat, bigNat, addrPlus]; cases s.byteOrder <;> simp

/-- Byte `i` of what a store of width `w` puts in memory. -/
theorem storedByte_eq (o : ByteOrder) (w : Width) (x : Word) (i : Nat) (hi : i < w.bytes) :
    storedByte o w (x.setWidth w.bits) i = BitVec.ofNat 8 (x.toNat / 256 ^ unitPlace o w.bytes i) := by
  have key : ∀ k, k < w.bytes →
      ((x.setWidth w.bits).extractLsb' (8 * k) 8 : Byte) = BitVec.ofNat 8 (x.toNat / 256 ^ k) := by
    intro k hk
    apply BitVec.eq_of_toNat_eq
    rw [BitVec.extractLsb'_toNat, Nat.shiftRight_eq_div_pow, BitVec.toNat_setWidth, BitVec.toNat_ofNat, Nat.pow_mul]
    have := x.isLt
    cases w <;> simp only [Width.bytes] at hk <;> interval_cases k <;> simp [Width.bits] <;> omega
  cases o
  · exact key i hi
  · exact key (w.bytes - 1 - i) (by omega)

theorem addrPlus_addrPlus (a : Word) (i j : Nat) : addrPlus (addrPlus a i) j = addrPlus a (i + j) := by
  apply BitVec.eq_of_toNat_eq; simp [addrPlus_toNat]; omega

theorem signExtend16_eq (x : BitVec 16) : x.signExtend 32 = BitVec.ofInt 32 (signedNat 16 x.toNat) := by
  rw [BitVec.signExtend, BitVec.toInt_eq_toNat_cond, signedNat]; congr 1; simp; split <;> split <;> omega

theorem signExtend8_eq (x : BitVec 8) : x.signExtend 32 = BitVec.ofInt 32 (signedNat 8 x.toNat) := by
  rw [BitVec.signExtend, BitVec.toInt_eq_toNat_cond, signedNat]; congr 1; simp; split <;> split <;> omega

/-! ### The forms of an outcome -/

/-- What a computational instruction makes of a state (40_integer_register_immediate.md R100). -/
theorem computed_writeAndAdvance (s : State) (rd : Reg) (v : Word) : Computed s (advance (writeReg s rd v)) rd v := by
  refine ⟨fun r => ?_, by simp, ⟨fun a => by simp, by simp, by simp, by simp, by simp⟩⟩
  rw [readReg_advance, readReg_writeReg]

/-- What raising makes of a state (60_exceptions.md R180). -/
theorem raise_raisedIn (e : Raised) (s : State) : ∃ t, raise e s = .next t ∧ RaisedIn s t e.cause e.info :=
  ⟨_, rfl, rfl, rfl, fun _ => rfl, fun _ => rfl, rfl, rfl, rfl⟩

theorem hasRow_of_encodesRow {i : Instr} {bits mask : Word} (h : i.tableRow = ⟨bits, mask⟩)
    (he : Sys2Proof.Laws.EncodesRow.Statement i) : HasRow i bits mask := by
  refine ⟨h, ?_⟩
  simpa [Sys2Proof.Laws.EncodesRow.Statement, h] using he

end Sys2Proof.Machine
end

