-- ==== Sys2Proof/Tests/Slice0.lean ====
section
/-! SUPPORT. Tests of the model, each a named theorem: the words of 95_test_vectors.md section 2.1 written out bit by bit,
the illegal words of section 2.6, one or two of its one-step vectors (sections 2.2 to 2.5) for every instruction, and for
every statement with hypotheses a witness that meets them. -/

namespace Sys2Proof.Tests.Slice0

open Sys2Proof Sys2Proof.Machine

/-! ### The states tests start from -/

/-- The memory map of 95_test_vectors.md section 2.5: the instruction's four bytes at `pc`, eight data bytes at 0x1000. -/
def fixtureMap (pc : Word) : MemMap :=
  [{ base := pc, size := 4, readable := true, writable := false, executable := true },
   { base := 0x1000, size := 8, readable := true, writable := true, executable := false }]

/-- The eight data bytes of section 2.5. -/
def fixtureByte (k : Nat) : Byte :=
  match k with
  | 0 => 0xEF
  | 1 => 0xCD
  | 2 => 0xAB
  | 3 => 0x89
  | 4 => 0x78
  | 5 => 0x56
  | 6 => 0x34
  | _ => 0x12

/-- A running state with the word `w` at `pc` and the registers of a list set. -/
def fixture (pc w : Word) (regs : List (Reg × Word)) : State :=
  regs.foldl (fun s r => writeReg s r.1 r.2)
    { x := Vector.replicate 31 0#32, pc := pc,
      mem := putBytes (putBytes [] 0x1000 fixtureByte 8) pc (byteOfWord .little w) 4,
      status := .running, byteOrder := .little, map := fixtureMap pc, haltPc := 0xFFFFFFFF }

/-- Whether the step from `s` answers a next state that passes a check. -/
def stepsTo (s : State) (check : State → Bool) : Bool :=
  match step s with
  | .next t => check t
  | .fault _ => false
  | .refused _ => false

/-- Whether the step from `s` goes on at `pc` with `v` in register `r`. -/
def gives (s : State) (r : Reg) (v pc : Word) : Bool :=
  stepsTo s fun t => readReg t r == v && t.pc == pc && decide (t.status = .running)

/-- Whether the step from `s` goes on with `b` in the byte at `a`. -/
def puts (s : State) (a : Word) (b : Byte) : Bool :=
  stepsTo s fun t => byteAt t a == b && t.pc == s.pc + 4 && decide (t.status = .running)

/-- Whether the step from `s` raises, with pc and memory as they were. -/
def raises (s : State) (e : Cause) (info : Word) : Bool :=
  stepsTo s fun t => decide (t.status = .faulted e info) && t.pc == s.pc && decide (t.mem = s.mem)

/-! ### Decoding (95_test_vectors.md section 2.1) -/

theorem test_decode_register_immediate :
    decode 0b11111111111100010000000010010011 = .ok (.addi 1 2 0xFFF) ∧
    decode 0b10000000000000100010000110010011 = .ok (.slti 3 4 0x800) ∧
    decode 0b01111111111100110011001010010011 = .ok (.sltiu 5 6 0x7FF) ∧
    decode 0b00001111111101000111001110010011 = .ok (.andi 7 8 0x0FF) ∧
    decode 0b11110000000001010110010010010011 = .ok (.ori 9 10 0xF00) ∧
    decode 0b11111111111101100100010110010011 = .ok (.xori 11 12 0xFFF) ∧
    decode 0b00000001111101110001011010010011 = .ok (.slli 13 14 31) ∧
    decode 0b00000000000110000101011110010011 = .ok (.srli 15 16 1) ∧
    decode 0b01000001000010010101100010010011 = .ok (.srai 17 18 16) ∧
    decode 0b00010010001101000101001010110111 = .ok (.lui 5 0x12345) ∧
    decode 0b11111111111111111111001100010111 = .ok (.auipc 6 0xFFFFF) := by decide

theorem test_decode_register_register :
    decode 0b00000000001100010000000010110011 = .ok (.add 1 2 3) ∧
    decode 0b00000000011000101010001000110011 = .ok (.slt 4 5 6) ∧
    decode 0b00000000100101000011001110110011 = .ok (.sltu 7 8 9) ∧
    decode 0b00000000110001011111010100110011 = .ok (.and 10 11 12) ∧
    decode 0b00000000111101110110011010110011 = .ok (.or 13 14 15) ∧
    decode 0b00000001001010001100100000110011 = .ok (.xor 16 17 18) ∧
    decode 0b00000001010110100001100110110011 = .ok (.sll 19 20 21) ∧
    decode 0b00000001100010111101101100110011 = .ok (.srl 22 23 24) ∧
    decode 0b01000001101111010000110010110011 = .ok (.sub 25 26 27) ∧
    decode 0b01000001111011101101111000110011 = .ok (.sra 28 29 30) := by decide

theorem test_decode_control_transfer :
    decode 0b00000000000000000110000011101111 = .ok (.jal 1 0x00006) ∧
    decode 0b00000000000000001000000001100111 = .ok (.jalr 0 1 0x000) ∧
    decode 0b00000000010000010000010001100011 = .ok (.beq 1 2 0x004) ∧
    decode 0b11111111110000000000010011100011 = .ok (.bne 1 0 0xFFC) ∧
    decode 0b01111111111000100000111001100011 = .ok (.blt 3 4 0x7FE) ∧
    decode 0b10000000000000110001011101100011 = .ok (.bltu 5 6 0x800) ∧
    decode 0b00000000100001000001111011100011 = .ok (.bge 7 8 0x008) ∧
    decode 0b11111111111011110111111111100011 = .ok (.bgeu 31 30 0xFFE) := by decide

theorem test_decode_load_store :
    decode 0b00000000000000010010001010000011 = .ok (.lw 5 2 0x000) ∧
    decode 0b11111111111000011001001100000011 = .ok (.lh 6 3 0xFFE) ∧
    decode 0b01111111111000100101001110000011 = .ok (.lhu 7 4 0x7FE) ∧
    decode 0b11111111111101001000010000000011 = .ok (.lb 8 9 0xFFF) ∧
    decode 0b01111111111101011100010100000011 = .ok (.lbu 10 11 0x7FF) ∧
    decode 0b00000000100000101000100100100011 = .ok (.sw 5 2 0x008) ∧
    decode 0b11111111111000110000110010100011 = .ok (.sh 6 3 0xFFE) ∧
    decode 0b10000000000011111111100000100011 = .ok (.sb 31 30 0x800) := by decide

/-! ### Ill-formed words (95_test_vectors.md section 2.6), one class of 30_encoding.md R85 each -/

theorem test_ill_formed_opcode :
    (illegalOpcode 0x00000000 = true ∧ wordWellFormed 0x00000000 = false ∧ (decode 0x00000000).isOk = false) ∧
    (illegalOpcode 0xFFFFFFFF = true ∧ wordWellFormed 0xFFFFFFFF = false ∧ (decode 0xFFFFFFFF).isOk = false) ∧
    (illegalOpcode 0x00000073 = true ∧ wordWellFormed 0x00000073 = false ∧ (decode 0x00000073).isOk = false) := by decide

theorem test_ill_formed_jalr :
    (illegalJalr 0x00001067 = true ∧ wordWellFormed 0x00001067 = false ∧ (decode 0x00001067).isOk = false) ∧
    (illegalJalr 0x00007067 = true ∧ wordWellFormed 0x00007067 = false ∧ (decode 0x00007067).isOk = false) := by decide

theorem test_ill_formed_branch :
    (illegalBranch 0x00000163 = true ∧ wordWellFormed 0x00000163 = false ∧ (decode 0x00000163).isOk = false) ∧
    (illegalBranch 0x000001E3 = true ∧ wordWellFormed 0x000001E3 = false ∧ (decode 0x000001E3).isOk = false) := by decide

theorem test_ill_formed_load :
    (illegalLoad 0x00003003 = true ∧ wordWellFormed 0x00003003 = false ∧ (decode 0x00003003).isOk = false) ∧
    (illegalLoad 0x00007003 = true ∧ wordWellFormed 0x00007003 = false ∧ (decode 0x00007003).isOk = false) := by decide

theorem test_ill_formed_store :
    (illegalStore 0x000001A3 = true ∧ wordWellFormed 0x000001A3 = false ∧ (decode 0x000001A3).isOk = false) ∧
    (illegalStore 0x000003A3 = true ∧ wordWellFormed 0x000003A3 = false ∧ (decode 0x000003A3).isOk = false) := by decide

theorem test_ill_formed_shift :
    (illegalShift 0x02001013 = true ∧ wordWellFormed 0x02001013 = false ∧ (decode 0x02001013).isOk = false) ∧
    (illegalShift 0x80005013 = true ∧ wordWellFormed 0x80005013 = false ∧ (decode 0x80005013).isOk = false) ∧
    (illegalShift 0x02005013 = true ∧ wordWellFormed 0x02005013 = false ∧ (decode 0x02005013).isOk = false) := by decide

theorem test_ill_formed_op :
    (illegalOp 0x02000033 = true ∧ wordWellFormed 0x02000033 = false ∧ (decode 0x02000033).isOk = false) ∧
    (illegalOp 0x40001033 = true ∧ wordWellFormed 0x40001033 = false ∧ (decode 0x40001033).isOk = false) ∧
    (illegalOp 0x80000033 = true ∧ wordWellFormed 0x80000033 = false ∧ (decode 0x80000033).isOk = false) := by decide

/-- Legal words next to the illegal ones (section 2.6). -/
theorem test_well_formed : wordWellFormed 0x00001013 = true ∧ wordWellFormed 0x40005013 = true ∧
    wordWellFormed 0x40000033 = true ∧ wordWellFormed 0x00000063 = true ∧ wordWellFormed 0x00000023 = true := by decide

/-- A map with a byte both writable and executable is no map of a launch (20_memory.md R52). -/
theorem test_clashing_map : mapClashes [{ base := 4, size := 4, readable := true, writable := true, executable := true }] = true ∧
    mapClashes (fixtureMap 0x100) = false := by decide

theorem test_step_illegal : raises (fixture 0x100 0x00000073 []) .illegalInstruction 0x00000073 = true := by decide

/-! ### One step of each instruction (95_test_vectors.md sections 2.2 to 2.5) -/

/-- `addi x1, x2, 1` -/
theorem test_addi : gives (fixture 0x00000100 0x00110093 [(2, 0x7FFFFFFF)]) 1 0x80000000 0x00000104 = true := by decide

/-- `addi x1, x2, -2048` -/
theorem test_addi_more : gives (fixture 0x00000100 0x80010093 [(2, 0x00000000)]) 1 0xFFFFF800 0x00000104 = true := by decide

/-- `slti x1, x2, -1` -/
theorem test_slti : gives (fixture 0x00000100 0xFFF12093 [(2, 0x80000000)]) 1 0x00000001 0x00000104 = true := by decide

/-- `slti x1, x2, -2048` -/
theorem test_slti_more : gives (fixture 0x00000100 0x80012093 [(2, 0x7FFFFFFF)]) 1 0x00000000 0x00000104 = true := by decide

/-- `sltiu x1, x2, -1` -/
theorem test_sltiu : gives (fixture 0x00000100 0xFFF13093 [(2, 0xFFFFFFFE)]) 1 0x00000001 0x00000104 = true := by decide

/-- `sltiu x1, x2, -2048` -/
theorem test_sltiu_more : gives (fixture 0x00000100 0x80013093 [(2, 0x7FFFFFFF)]) 1 0x00000001 0x00000104 = true := by decide

/-- `andi x1, x2, -256` -/
theorem test_andi : gives (fixture 0x00000100 0xF0017093 [(2, 0x12345678)]) 1 0x12345600 0x00000104 = true := by decide

/-- `ori x1, x2, -2048` -/
theorem test_ori : gives (fixture 0x00000100 0x80016093 [(2, 0x00000001)]) 1 0xFFFFF801 0x00000104 = true := by decide

/-- `xori x1, x2, -1` -/
theorem test_xori : gives (fixture 0x00000100 0xFFF14093 [(2, 0x12345678)]) 1 0xEDCBA987 0x00000104 = true := by decide

/-- `slli x1, x2, 0` -/
theorem test_slli : gives (fixture 0x00000100 0x00011093 [(2, 0x80000001)]) 1 0x80000001 0x00000104 = true := by decide

/-- `slli x1, x2, 31` -/
theorem test_slli_more : gives (fixture 0x00000100 0x01F11093 [(2, 0x00000001)]) 1 0x80000000 0x00000104 = true := by decide

/-- `srli x1, x2, 0` -/
theorem test_srli : gives (fixture 0x00000100 0x00015093 [(2, 0x80000001)]) 1 0x80000001 0x00000104 = true := by decide

/-- `srli x1, x2, 31` -/
theorem test_srli_more : gives (fixture 0x00000100 0x01F15093 [(2, 0x80000000)]) 1 0x00000001 0x00000104 = true := by decide

/-- `srai x1, x2, 31` -/
theorem test_srai : gives (fixture 0x00000100 0x41F15093 [(2, 0x80000000)]) 1 0xFFFFFFFF 0x00000104 = true := by decide

/-- `srai x1, x2, 4` -/
theorem test_srai_more : gives (fixture 0x00000100 0x40415093 [(2, 0xFFFFFF00)]) 1 0xFFFFFFF0 0x00000104 = true := by decide

/-- `lui x1, 0xFFFFF` -/
theorem test_lui : gives (fixture 0x00000100 0xFFFFF0B7 []) 1 0xFFFFF000 0x00000104 = true := by decide

/-- `lui x0, 0x12345` -/
theorem test_lui_more : gives (fixture 0x00000100 0x12345037 []) 0 0x00000000 0x00000104 = true := by decide

/-- `auipc x1, 0xFFFFF` -/
theorem test_auipc : gives (fixture 0x00002000 0xFFFFF097 []) 1 0x00001000 0x00002004 = true := by decide

/-- `auipc x1, 0x80000` -/
theorem test_auipc_more : gives (fixture 0x80000004 0x80000097 []) 1 0x00000004 0x80000008 = true := by decide

/-- `add x3, x1, x2` -/
theorem test_add : gives (fixture 0x00000100 0x002081B3 [(1, 0x7FFFFFFF), (2, 0x00000001)]) 3 0x80000000 0x00000104 = true := by decide

/-- `add x5, x5, x5` -/
theorem test_add_more : gives (fixture 0x00000100 0x005282B3 [(5, 0x40000001)]) 5 0x80000002 0x00000104 = true := by decide

/-- `sub x3, x1, x2` -/
theorem test_sub : gives (fixture 0x00000100 0x402081B3 [(1, 0x00000005), (2, 0x00000007)]) 3 0xFFFFFFFE 0x00000104 = true := by decide

/-- `sub x3, x1, x2` -/
theorem test_sub_more : gives (fixture 0x00000100 0x402081B3 [(1, 0x80000000), (2, 0x00000001)]) 3 0x7FFFFFFF 0x00000104 = true := by decide

/-- `slt x3, x1, x2` -/
theorem test_slt : gives (fixture 0x00000100 0x0020A1B3 [(1, 0x80000000), (2, 0x7FFFFFFF)]) 3 0x00000001 0x00000104 = true := by decide

/-- `slt x3, x1, x2` -/
theorem test_slt_more : gives (fixture 0x00000100 0x0020A1B3 [(1, 0x00000001), (2, 0xFFFFFFFF)]) 3 0x00000000 0x00000104 = true := by decide

/-- `sltu x3, x1, x2` -/
theorem test_sltu : gives (fixture 0x00000100 0x0020B1B3 [(1, 0xFFFFFFFF), (2, 0x00000001)]) 3 0x00000000 0x00000104 = true := by decide

/-- `sltu x3, x1, x2` -/
theorem test_sltu_more : gives (fixture 0x00000100 0x0020B1B3 [(1, 0x00000001), (2, 0xFFFFFFFF)]) 3 0x00000001 0x00000104 = true := by decide

/-- `and x3, x1, x2` -/
theorem test_and : gives (fixture 0x00000100 0x0020F1B3 [(1, 0xFF00FF00), (2, 0x0FF00FF0)]) 3 0x0F000F00 0x00000104 = true := by decide

/-- `or x3, x1, x2` -/
theorem test_or : gives (fixture 0x00000100 0x0020E1B3 [(1, 0xFF00FF00), (2, 0x0FF00FF0)]) 3 0xFFF0FFF0 0x00000104 = true := by decide

/-- `xor x3, x1, x2` -/
theorem test_xor : gives (fixture 0x00000100 0x0020C1B3 [(1, 0xFF00FF00), (2, 0x0FF00FF0)]) 3 0xF0F0F0F0 0x00000104 = true := by decide

/-- `sll x3, x1, x2` -/
theorem test_sll : gives (fixture 0x00000100 0x002091B3 [(1, 0x80000001), (2, 0x00000021)]) 3 0x00000002 0x00000104 = true := by decide

/-- `sll x3, x1, x2` -/
theorem test_sll_more : gives (fixture 0x00000100 0x002091B3 [(1, 0x00000001), (2, 0x00000020)]) 3 0x00000001 0x00000104 = true := by decide

/-- `srl x3, x1, x2` -/
theorem test_srl : gives (fixture 0x00000100 0x0020D1B3 [(1, 0x80000000), (2, 0x0000001F)]) 3 0x00000001 0x00000104 = true := by decide

/-- `srl x3, x1, x2` -/
theorem test_srl_more : gives (fixture 0x00000100 0x0020D1B3 [(1, 0x80000000), (2, 0x00000100)]) 3 0x80000000 0x00000104 = true := by decide

/-- `sra x3, x1, x2` -/
theorem test_sra : gives (fixture 0x00000100 0x4020D1B3 [(1, 0xFFFFFF00), (2, 0x00000024)]) 3 0xFFFFFFF0 0x00000104 = true := by decide

/-- `sra x2, x1, x2` -/
theorem test_sra_more : gives (fixture 0x00000100 0x4020D133 [(1, 0xF0000000), (2, 0x00000004)]) 2 0xFF000000 0x00000104 = true := by decide

/-- `jal x1, -8` -/
theorem test_jal : gives (fixture 0x00000004 0xFFFFC0EF []) 1 0x00000008 0xFFFFFFFC = true := by decide

/-- `jal x1, +6` -/
theorem test_jal_more : raises (fixture 0x00000100 0x000030EF []) .instructionAddressMisaligned 0x00000106 = true := by decide

/-- `jalr x1, 0(x1)` -/
theorem test_jalr : gives (fixture 0x00000100 0x000080E7 [(1, 0x00000300)]) 1 0x00000104 0x00000300 = true := by decide

/-- `jalr x1, 0(x2)` -/
theorem test_jalr_more : raises (fixture 0x00000100 0x000100E7 [(2, 0x00000203)]) .instructionAddressMisaligned 0x00000202 = true := by decide

/-- `beq x1, x2, +6` -/
theorem test_beq : raises (fixture 0x00000100 0x00310463 [(1, 0x00000005), (2, 0x00000005)]) .instructionAddressMisaligned 0x00000106 = true := by decide

/-- `beq x1, x2, +6` -/
theorem test_beq_more : gives (fixture 0x00000100 0x00310463 [(1, 0x00000005), (2, 0x00000006)]) 1 0x00000005 0x00000104 = true := by decide

/-- `bne x1, x2, -8` -/
theorem test_bne : gives (fixture 0x00000100 0xFFC104E3 [(1, 0x00000005), (2, 0x00000006)]) 1 0x00000005 0x000000F8 = true := by decide

/-- `bne x1, x0, -4096` -/
theorem test_bne_more : gives (fixture 0x00002000 0x800004E3 [(1, 0x00000001)]) 1 0x00000001 0x00001000 = true := by decide

/-- `blt x1, x2, +16` -/
theorem test_blt : gives (fixture 0x00000100 0x00810663 [(1, 0xFFFFFFFF), (2, 0x00000001)]) 1 0xFFFFFFFF 0x00000110 = true := by decide

/-- `blt x1, x2, +16` -/
theorem test_blt_more : gives (fixture 0x00000100 0x00810663 [(1, 0x00000007), (2, 0x00000007)]) 1 0x00000007 0x00000104 = true := by decide

/-- `bltu x1, x2, +16` -/
theorem test_bltu : gives (fixture 0x00000100 0x00810763 [(1, 0xFFFFFFFF), (2, 0x00000001)]) 1 0xFFFFFFFF 0x00000104 = true := by decide

/-- `bltu x1, x2, +16` -/
theorem test_bltu_more : gives (fixture 0x00000100 0x00810763 [(1, 0x00000001), (2, 0xFFFFFFFF)]) 1 0x00000001 0x00000110 = true := by decide

/-- `bge x1, x2, +16` -/
theorem test_bge : gives (fixture 0x00000100 0x008106E3 [(1, 0x80000000), (2, 0x00000000)]) 1 0x80000000 0x00000104 = true := by decide

/-- `bge x1, x2, +16` -/
theorem test_bge_more : gives (fixture 0x00000100 0x008106E3 [(1, 0x00000007), (2, 0x00000007)]) 1 0x00000007 0x00000110 = true := by decide

/-- `bgeu x1, x2, +16` -/
theorem test_bgeu : gives (fixture 0x00000100 0x008107E3 [(1, 0x80000000), (2, 0x00000000)]) 1 0x80000000 0x00000110 = true := by decide

/-- `bgeu x1, x2, +16` -/
theorem test_bgeu_more : gives (fixture 0x00000100 0x008107E3 [(1, 0x00000000), (2, 0x00000001)]) 1 0x00000000 0x00000104 = true := by decide

/-- `lw x2, 0(x2)` -/
theorem test_lw : gives (fixture 0x00000100 0x00012103 [(2, 0x00001000)]) 2 0x89ABCDEF 0x00000104 = true := by decide

/-- `lw x3, 2(x2)` -/
theorem test_lw_more : raises (fixture 0x00000100 0x00212183 [(2, 0x00001000)]) .loadAddressMisaligned 0x00001002 = true := by decide

/-- `lh x3, 2(x2)` -/
theorem test_lh : gives (fixture 0x00000100 0x00211183 [(2, 0x00001000)]) 3 0xFFFF89AB 0x00000104 = true := by decide

/-- `lh x3, 1(x2)` -/
theorem test_lh_more : raises (fixture 0x00000100 0x00111183 [(2, 0x00001000)]) .loadAddressMisaligned 0x00001001 = true := by decide

/-- `lhu x3, 2(x2)` -/
theorem test_lhu : gives (fixture 0x00000100 0x00215183 [(2, 0x00001000)]) 3 0x000089AB 0x00000104 = true := by decide

/-- `lhu x3, 3(x2)` -/
theorem test_lhu_more : raises (fixture 0x00000100 0x00315183 [(2, 0x00001000)]) .loadAddressMisaligned 0x00001003 = true := by decide

/-- `lb x3, 3(x2)` -/
theorem test_lb : gives (fixture 0x00000100 0x00310183 [(2, 0x00001000)]) 3 0xFFFFFF89 0x00000104 = true := by decide

/-- `lb x3, 4(x2)` -/
theorem test_lb_more : gives (fixture 0x00000100 0x00410183 [(2, 0x00001000)]) 3 0x00000078 0x00000104 = true := by decide

/-- `lbu x3, 7(x2)` -/
theorem test_lbu : gives (fixture 0x00000100 0x00714183 [(2, 0x00001000)]) 3 0x00000012 0x00000104 = true := by decide

/-- `lbu x3, -1(x0)` -/
theorem test_lbu_more : raises (fixture 0x00000100 0xFFF04183 []) .loadAccessFault 0xFFFFFFFF = true := by decide

/-- `sw x5, 4(x2)` -/
theorem test_sw : puts (fixture 0x00000100 0x00428923 [(2, 0x00001000), (5, 0xA1B2C3D4)]) 0x00001004 0xD4 = true ∧
    puts (fixture 0x00000100 0x00428923 [(2, 0x00001000), (5, 0xA1B2C3D4)]) 0x00001007 0xA1 = true := by decide

/-- `sw x5, 8(x2)` -/
theorem test_sw_more : raises (fixture 0x00000100 0x00828923 [(2, 0x00001000), (5, 0xA1B2C3D4)]) .storeAccessFault 0x00001008 = true := by decide

/-- `sh x5, 6(x2)` -/
theorem test_sh : puts (fixture 0x00000100 0x006288A3 [(2, 0x00001000), (5, 0xA1B2C3D4)]) 0x00001006 0xD4 = true ∧
    puts (fixture 0x00000100 0x006288A3 [(2, 0x00001000), (5, 0xA1B2C3D4)]) 0x00001007 0xC3 = true := by decide

/-- `sh x5, 1(x2)` -/
theorem test_sh_more : raises (fixture 0x00000100 0x001288A3 [(2, 0x00001000), (5, 0xA1B2C3D4)]) .storeAddressMisaligned 0x00001001 = true := by decide

/-- `sb x5, -1(x2)` -/
theorem test_sb : puts (fixture 0x00000100 0xFFF28823 [(2, 0x00001008), (5, 0xA1B2C3D4)]) 0x00001007 0xD4 = true := by decide

/-- `sb x5, 0(x2)` -/
theorem test_sb_more : raises (fixture 0x00000100 0x00028823 [(2, 0x00000100), (5, 0xA1B2C3D4)]) .storeAccessFault 0x00000100 = true := by decide

/-! ### The step and the host's placing (95_test_vectors.md section 2.7; notes/assumptions/7.md) -/

/-- Nothing is executable at reset: the first step raises at the entry (notes/assumptions/4.md and 7.md). -/
theorem test_step_from_reset : raises State.reset .instructionAccessFault 0x00000100 = true := by decide

/-- `addi x1, x0, 5` as the first instruction after reset. -/
theorem test_placed_word_runs : gives (State.reset.withFetchWord 32 0x00500093) 1 5 0x00000104 = true := by decide

theorem test_decode_table_word : decodeTableWord 32 0x00500093 = some (.addi 1 0 5) ∧
    decodeTableWord 32 0x00000073 = none := by decide

/-- Section 2.7: at `HALT_PC` the run ends, and nothing is fetched. -/
theorem test_halt : stepsTo { fixture 0x14 0 [] with haltPc := 0x14 } (fun t => decide (t.status = .ended) && t.pc == 0x14) = true := by
  decide

/-- Section 2.7: pc + 4 at the top of the address space. -/
theorem test_pc_wraps : gives (fixture 0xFFFFFFFC 0x00000013 []) 0 0 0 = true := by decide

/-- Program P2 of section 3.2 with `BYTE_ORDER = big`: the word 0x89ABCDEF lies as 89 AB CD EF. -/
theorem test_big_endian_store : puts { fixture 0x100 0 [(1, 0x89ABCDEF), (2, 0x1000)] with
    byteOrder := .big, mem := putBytes [] 0x100 (byteOfWord .big 0x00008923) 4 } 0x1000 0x89 = true := by decide

/-! ### Witnesses: for every statement with hypotheses, a state and operands that meet them -/

theorem witness_EncodeOfDecoded : decode 0xFFF10093 = .ok (.addi 1 2 0xFFF) := by decide

theorem witness_DecoderMatchesTable : (⟨0x40005013, 0xFE00707F⟩ : TableRow) ∈ opcodeTable ∧
    (0x41095893 : Word) &&& 0xFE00707F = 0x40005013 ∧ decode 0x41095893 = .ok (.srai 17 18 16) := by decide

/-- Clause 1 on the word of all zeros but a legal pattern, clause 2 on the word of all ones. -/
theorem witness_IllegalWordsRaise : wordWellFormed 0x00000063 = true ∧ wordWellFormed 0xFFFFFFFF = false ∧
    (fixture 0x100 0xFFFFFFFF []).status = .running ∧ (fixture 0x100 0xFFFFFFFF []).pc ≠ (fixture 0x100 0xFFFFFFFF []).haltPc ∧
    (fixture 0x100 0xFFFFFFFF []).pc.toNat % 4 = 0 ∧ fetch (fixture 0x100 0xFFFFFFFF []) 0x100 = .ok 0xFFFFFFFF := by decide

/-- A load whose rd is a register other than x0, and which completes. -/
theorem witness_WriteToX0IsDiscarded :
    (∃ t, exec (Instr.withDest 3 (.lw 3 2 0)) (fixture 0x100 0x00012183 [(2, 0x1000)]) = .next t) ∧
    (Instr.lw 3 2 0).dest ≠ none := ⟨⟨_, rfl⟩, by decide⟩

theorem witness_OnlyRdIsWritten : (∃ t, exec (.addi 1 2 5) State.reset = .next t) ∧
    (Instr.addi 1 2 5).dest ≠ some 2 ∧ (Instr.sw 1 2 5).dest ≠ some 1 := ⟨⟨_, rfl⟩, by decide, by decide⟩

/-- The last aligned pc of the address space. -/
theorem witness_StepRunsDecoded : (fixture 0xFFFFFFFC 0x00000013 []).status = .running ∧
    (fixture 0xFFFFFFFC 0x00000013 []).pc ≠ (fixture 0xFFFFFFFC 0x00000013 []).haltPc ∧
    (fixture 0xFFFFFFFC 0x00000013 []).pc.toNat % 4 = 0 ∧
    (∀ k, k < 4 → executable (fixture 0xFFFFFFFC 0x00000013 []).map (addrPlus 0xFFFFFFFC k) = true) ∧
    decodeBytes .little (nextBytes (fixture 0xFFFFFFFC 0x00000013 [])) = .ok (.addi 0 0 0, []) := by decide

/-- The three clauses: pc 2 modulo 4; pc whose last byte alone is not executable; an executable illegal word. -/
theorem witness_FetchFaultsInOrder :
    ((fixture 0x102 0 []).status = .running ∧ (fixture 0x102 0 []).pc ≠ (fixture 0x102 0 []).haltPc ∧
      (fixture 0x102 0 []).pc.toNat % 4 ≠ 0) ∧
    (let s := { fixture 0x100 0x13 [] with map := [{ base := 0x100, size := 3, readable := true, writable := false, executable := true }] }
     s.status = .running ∧ s.pc ≠ s.haltPc ∧ s.pc.toNat % 4 = 0 ∧ ¬ (∀ k, k < 4 → executable s.map (addrPlus s.pc k) = true)) ∧
    ((fixture 0x100 0x00000073 []).pc.toNat % 4 = 0 ∧
      (∀ k, k < 4 → executable (fixture 0x100 0x00000073 []).map (addrPlus 0x100 k) = true) ∧
      wordWellFormed (BitVec.ofNat 32 (accessNat (fixture 0x100 0x00000073 []) 0x100 4)) = false) := by decide

theorem witness_RunEndsAtHaltPc : ({ fixture 0x100 0 [] with haltPc := 0x100 } : State).status = .running ∧
    ({ fixture 0x100 0 [] with haltPc := 0x100 } : State).pc = ({ fixture 0x100 0 [] with haltPc := 0x100 } : State).haltPc := by decide

theorem witness_EndedAndFaultedAbsorb : (endRun State.reset).status = .ended ∧
    ({ State.reset with status := .faulted .illegalInstruction 0 } : State).status = .faulted .illegalInstruction 0 ∧
    Reaches 0 { State.reset with status := .faulted .illegalInstruction 0 }
      { State.reset with status := .faulted .illegalInstruction 0 } := ⟨by decide, by decide, reaches_zero.2 rfl⟩

theorem witness_EveryRunningStateSteps : State.reset.status = .running ∧
    ∃ t, step (fixture 0x100 0x00000013 []) = .next t ∧ t.status = .running := ⟨by decide, _, rfl, by decide⟩

theorem fixture_admitted : MapAdmitted (fixtureMap 0x100) := by
  intro a h
  revert h
  simp only [fixtureMap, writable, executable, regionAt, List.find?_cons, List.find?_nil]
  split <;> [simp; (split <;> simp)]

/-- A store, so that the step changes memory too. -/
theorem witness_StepKeepsInvariant : Inv (fixture 0x100 0x00028923 [(2, 0x1000), (5, 0xA1B2C3D4)]) ∧
    ∃ t, step (fixture 0x100 0x00028923 [(2, 0x1000), (5, 0xA1B2C3D4)]) = .next t ∧
      t.mem ≠ (fixture 0x100 0x00028923 [(2, 0x1000), (5, 0xA1B2C3D4)]).mem :=
  ⟨⟨by decide, fixture_admitted, by unfold PcAligned; decide⟩, _, rfl, by decide⟩

theorem witness_PcStaysAligned : PcAligned (fixture 0xFFFFFFFC 0x00000013 []) ∧
    ∃ t, step (fixture 0xFFFFFFFC 0x00000013 []) = .next t := ⟨by unfold PcAligned; decide, _, rfl⟩

theorem witness_PlacedInstructionRuns : decodeTableWord 32 0x800FF823 = some (.sb 31 30 0x800) := by decide

/-- The lowest and the highest byte of the access change. -/
theorem witness_OnlyStoresChangeMemory :
    ∃ t, step (fixture 0x100 0x00028923 [(2, 0x1000), (5, 0xA1B2C3D4)]) = .next t ∧
      byteAt t 0x1000 ≠ byteAt (fixture 0x100 0x00028923 [(2, 0x1000), (5, 0xA1B2C3D4)]) 0x1000 ∧
      byteAt t 0x1003 ≠ byteAt (fixture 0x100 0x00028923 [(2, 0x1000), (5, 0xA1B2C3D4)]) 0x1003 := ⟨_, rfl, by decide, by decide⟩

theorem witness_OnlyLoadsAndStoresUseMemory : (Instr.jal 1 6).access = none ∧ ∃ t, exec (.jal 1 6) State.reset = .next t :=
  ⟨by decide, _, rfl⟩

theorem witness_ParametersAreFixed : ∃ t, step State.reset = .next t := ⟨_, rfl⟩

/-- Clause 1 on a store of a word to the program, its last byte; clause 2 on a pc in the data, its first byte. -/
theorem witness_SelfModifyingCodeRefused : MapAdmitted (fixtureMap 0x100) ∧
    ((Instr.sw 5 0 0x100).access = some (true, .word, 0, 0x100) ∧
      (effectiveAddress (fixture 0x100 0x13 []) 0 0x100).toNat % Width.word.bytes = 0 ∧
      Touches Width.word.bytes (effectiveAddress (fixture 0x100 0x13 []) 0 0x100) 0x103 ∧
      executable (fixtureMap 0x100) 0x103 = true) ∧
    (let s := { fixture 0x100 0x13 [] with pc := 0x1000 }
     s.status = .running ∧ s.pc ≠ s.haltPc ∧ s.pc.toNat % 4 = 0 ∧ Touches 4 s.pc 0x1000 ∧ writable s.map 0x1000 = true) :=
  ⟨fixture_admitted, ⟨by decide, by decide, ⟨3, by decide, by decide⟩, by decide⟩,
    by decide, by decide, by decide, ⟨0, by decide, by decide⟩, by decide⟩

/-- A launch of one word of program, and one step of its run. -/
def sampleLaunch : Launch where
  byteOrder := .little
  map := fixtureMap 0x100
  initMem := [(0x100, 0x93), (0x101, 0x00), (0x102, 0x50), (0x103, 0x00)]
  blank := [{ base := 0x1000, size := 8 }]
  entryPc := 0x100
  initX := Vector.replicate 31 7
  haltPc := 0x104

theorem sampleLaunch_admitted : LaunchAdmitted sampleLaunch where
  map := fixture_admitted
  init := by
    intro a h
    by_cases h1 : spanHolds 256#32 4 a = true
    · rw [spanHolds_eq_true] at h1
      have h2 : a = 0x100 ∨ a = 0x101 ∨ a = 0x102 ∨ a = 0x103 := by bv_omega
      rcases h2 with rfl | rfl | rfl | rfl <;> decide
    · by_cases h2 : spanHolds 4096#32 8 a = true
      · rcases initByte_cases sampleLaunch a with ⟨b, -, e⟩ | ⟨-, -, e⟩ | ⟨-, hb, -⟩
        · rw [e]; exact nofun
        · rw [e]; exact nofun
        · simp [sampleLaunch, h2] at hb
      · have hr : regionAt sampleLaunch.map a = none := by simp [sampleLaunch, fixtureMap, regionAt, regionHolds, h1, h2]
        simp [readable, executable, hr] at h

theorem witness_ProgramFixedForTheRun :
    ∃ s t, launch sampleLaunch = .next s ∧ Reaches 1 s t ∧ executable sampleLaunch.map 0x102 = true ∧ readReg t 1 = 5 :=
  ⟨_, _, rfl, reaches_succ.2 ⟨_, rfl, reaches_zero.2 rfl⟩, by decide, by decide⟩

/-- A state that holds the program of `sampleLaunch`, and a step of it that stores. -/
theorem witness_StepKeepsProgram :
    (let p := { sampleLaunch with initMem := [(0x100, 0x23), (0x101, 0x89), (0x102, 0x02), (0x103, 0x00)] }
     HoldsProgram p (fixture 0x100 0x00028923 [(2, 0x1000), (5, 0xA1B2C3D4)])) ∧
    ∃ t, step (fixture 0x100 0x00028923 [(2, 0x1000), (5, 0xA1B2C3D4)]) = .next t ∧ byteAt t 0x1000 = 0xD4 := by
  refine ⟨⟨fixture_admitted, rfl, fun a h => ?_⟩, _, rfl, by decide⟩
  by_cases h1 : spanHolds 256#32 4 a = true
  · rw [spanHolds_eq_true] at h1
    have h2 : a = 0x100 ∨ a = 0x101 ∨ a = 0x102 ∨ a = 0x103 := by bv_omega
    rcases h2 with rfl | rfl | rfl | rfl <;> decide
  · by_cases h2 : spanHolds 4096#32 8 a = true <;>
      simp [sampleLaunch, fixtureMap, executable, regionAt, regionHolds, h1, h2] at h

/-- Each size at the last place of the data that it fits in. -/
theorem witness_StoreThenLoad :
    (let s := fixture 0x100 0x13 [(1, 0x1000)]
     ((effectiveAddress s 1 4).toNat % 4 = 0 ∧ (∀ k, k < 4 → writable s.map (addrPlus (effectiveAddress s 1 4) k) = true) ∧
       ∀ k, k < 4 → readable s.map (addrPlus (effectiveAddress s 1 4) k) = true) ∧
     ((effectiveAddress s 1 6).toNat % 2 = 0 ∧ (∀ k, k < 2 → writable s.map (addrPlus (effectiveAddress s 1 6) k) = true) ∧
       ∀ k, k < 2 → readable s.map (addrPlus (effectiveAddress s 1 6) k) = true) ∧
     (∀ k, k < 1 → writable s.map (addrPlus (effectiveAddress s 1 7) k) = true) ∧
       ∀ k, k < 1 → readable s.map (addrPlus (effectiveAddress s 1 7) k) = true) := by decide

theorem witness_MixedWidthReads : (∃ t, memWrite (fixture 0x100 0x13 []) 0x1004 .word 0x01020304 = .ok t) ∧
    ∀ k, k < 4 → readable (fixture 0x100 0x13 []).map (addrPlus 0x1004 k) = true := ⟨⟨_, rfl⟩, by decide⟩

/-- The immediates 0xFFF and 0x7FF, the two sides of the sign. -/
theorem witness_LogicalImmediates :
    (∀ k, k < 32 → (0xFFFFFFFF : Word).getLsbD k = (0xFFF : Imm12).getLsbD (if k < 12 then k else 11)) ∧
    (∀ k, k < 32 → (0x000007FF : Word).getLsbD k = (0x7FF : Imm12).getLsbD (if k < 12 then k else 11)) := by decide

/-- JAL and JALR: a target 2 modulo 4 and an aligned one, at the ends of the offsets' ranges. -/
theorem witness_jumps :
    (scaledTarget (fixture 0x100 0 []) (0x7FFFF : Imm20).toInt).toNat % 4 ≠ 0 ∧
    (scaledTarget (fixture 0x100 0 []) (0x80000 : Imm20).toInt).toNat % 4 = 0 ∧
    (BitVec.ofNat 32 ((BitVec.ofInt 32 ((readReg (fixture 0x100 0 [(2, 0x203)]) 2).toInt + (0 : Imm12).toInt)).toNat / 2 * 2)).toNat % 4 ≠ 0 ∧
    (BitVec.ofNat 32 ((BitVec.ofInt 32 ((readReg (fixture 0x100 0 [(2, 0x201)]) 2).toInt + (0x800 : Imm12).toInt)).toNat / 2 * 2)).toNat % 4 = 0 := by
  decide

/-- Where a branch goes: the farthest backward target is aligned, the farthest forward one is 2 modulo 4. -/
theorem witness_branch_targets :
    (scaledTarget (fixture 0x2000 0 []) (0x800 : Imm12).toInt).toNat % 4 = 0 ∧
    (scaledTarget (fixture 0x2000 0 []) (0x7FF : Imm12).toInt).toNat % 4 ≠ 0 := by decide

/-- Each condition met and not met, with the values where signed and unsigned order part. -/
theorem witness_branch_conditions :
    (let s := fixture 0x2000 0 [(1, 0x80000000), (2, 0x7FFFFFFF)]
     readReg s 1 = readReg s 1 ∧ readReg s 1 ≠ readReg s 2 ∧
     (readReg s 1).toInt < (readReg s 2).toInt ∧ ¬ (readReg s 2).toInt < (readReg s 1).toInt ∧
     (readReg s 2).toInt ≥ (readReg s 1).toInt ∧ ¬ (readReg s 1).toInt ≥ (readReg s 2).toInt ∧
     (readReg s 2).toNat < (readReg s 1).toNat ∧ ¬ (readReg s 1).toNat < (readReg s 2).toNat ∧
     (readReg s 1).toNat ≥ (readReg s 2).toNat ∧ ¬ (readReg s 2).toNat ≥ (readReg s 1).toNat) := by decide

/-- Words: misaligned at 0x1002; aligned and not mapped at 0x1008; completing at 0x1004, the last word of the data. -/
theorem witness_word_accesses :
    (let s := fixture 0x100 0 [(2, 0x1000)]
     (effectiveAddress s 2 2).toNat % 4 ≠ 0 ∧
     ((effectiveAddress s 2 8).toNat % 4 = 0 ∧ (¬ ∀ k, k < 4 → readable s.map (addrPlus (effectiveAddress s 2 8) k) = true) ∧
       ¬ ∀ k, k < 4 → writable s.map (addrPlus (effectiveAddress s 2 8) k) = true) ∧
     ((effectiveAddress s 2 4).toNat % 4 = 0 ∧ (∀ k, k < 4 → readable s.map (addrPlus (effectiveAddress s 2 4) k) = true) ∧
       ∀ k, k < 4 → writable s.map (addrPlus (effectiveAddress s 2 4) k) = true)) := by decide

/-- Halfwords: misaligned at 0x1007; aligned and not mapped at 0x0FFE; completing at 0x1006, the last of the data. -/
theorem witness_halfword_accesses :
    (let s := fixture 0x100 0 [(2, 0x1000)]
     (effectiveAddress s 2 7).toNat % 2 ≠ 0 ∧
     ((effectiveAddress s 2 0xFFE).toNat % 2 = 0 ∧ (¬ ∀ k, k < 2 → readable s.map (addrPlus (effectiveAddress s 2 0xFFE) k) = true) ∧
       ¬ ∀ k, k < 2 → writable s.map (addrPlus (effectiveAddress s 2 0xFFE) k) = true) ∧
     ((effectiveAddress s 2 6).toNat % 2 = 0 ∧ (∀ k, k < 2 → readable s.map (addrPlus (effectiveAddress s 2 6) k) = true) ∧
       ∀ k, k < 2 → writable s.map (addrPlus (effectiveAddress s 2 6) k) = true)) := by decide

/-- Bytes: never misaligned; not mapped at 0xFFFFFFFF, by a base of x0; completing at 0x1007, the last of the data. -/
theorem witness_byte_accesses :
    (let s := fixture 0x100 0 [(2, 0x1000)]
     ((effectiveAddress s 0 0xFFF).toNat % 1 = 0 ∧ (¬ ∀ k, k < 1 → readable s.map (addrPlus (effectiveAddress s 0 0xFFF) k) = true) ∧
       ¬ ∀ k, k < 1 → writable s.map (addrPlus (effectiveAddress s 0 0xFFF) k) = true) ∧
     ((effectiveAddress s 2 7).toNat % 1 = 0 ∧ (∀ k, k < 1 → readable s.map (addrPlus (effectiveAddress s 2 7) k) = true) ∧
       ∀ k, k < 1 → writable s.map (addrPlus (effectiveAddress s 2 7) k) = true)) := by decide

theorem witness_RaiseIsPreciseAndFinal :
    ∃ t, (fixture 0x100 0x00212183 [(2, 0x1000)]).status = .running ∧
      step (fixture 0x100 0x00212183 [(2, 0x1000)]) = .next t ∧ t.status = .faulted .loadAddressMisaligned 0x1002 :=
  ⟨_, by decide, rfl, by decide⟩

/-- One instruction for each clause that can be met: a jump, a load of a word, a load of a byte, a store of a word, a
store of a byte. -/
theorem witness_CausesByInstruction :
    (∃ t, exec (.jal 1 3) (fixture 0x100 0 []) = .next t ∧ t.status = .faulted .instructionAddressMisaligned 0x106) ∧
    (∃ t, exec (.lw 1 0 2) (fixture 0x100 0 []) = .next t ∧ t.status = .faulted .loadAddressMisaligned 2) ∧
    (∃ t, exec (.lb 1 0 0xFFF) (fixture 0x100 0 []) = .next t ∧ t.status = .faulted .loadAccessFault 0xFFFFFFFF) ∧
    (∃ t, exec (.sw 1 0 0x100) (fixture 0x100 0 []) = .next t ∧ t.status = .faulted .storeAccessFault 0x100) ∧
    (∃ t, exec (.sb 1 0 0xFFF) (fixture 0x100 0 []) = .next t ∧ t.status = .faulted .storeAccessFault 0xFFFFFFFF) :=
  ⟨⟨_, rfl, by decide⟩, ⟨_, rfl, by decide⟩, ⟨_, rfl, by decide⟩, ⟨_, rfl, by decide⟩, _, rfl, by decide⟩

/-- The last register, a listed byte and the last blank byte. -/
theorem witness_LaunchGivesFirstState : LaunchAdmitted sampleLaunch ∧ (31#5 : Reg).toNat - 1 < 31 ∧ (31#5 : Reg) ≠ 0#5 ∧
    initByte sampleLaunch 0x102 = some 0x50 ∧ initByte sampleLaunch 0x1007 = some 0 ∧ initByte sampleLaunch 0x1008 = none :=
  ⟨sampleLaunch_admitted, by decide, by decide, by decide, by decide, by decide⟩

theorem witness_LaunchHasInvariant : LaunchAdmitted sampleLaunch ∧ sampleLaunch.entryPc.toNat % 4 = 0 :=
  ⟨sampleLaunch_admitted, by decide⟩

/-- Each condition of 20_memory.md R52 broken alone, by one byte at the top of the address space: both writable and
executable; readable, or executable, without an initial byte. The launch they are made from is taken. -/
theorem witness_LaunchRefusedExactly :
    (let p := { sampleLaunch with
      map := [{ base := 0xFFFFFFFF, size := 1, readable := false, writable := true, executable := true }], initMem := [(0xFFFFFFFF, 1)] }
     launch p = .refused .launchNotAdmitted ∧ writable p.map 0xFFFFFFFF = true ∧ executable p.map 0xFFFFFFFF = true) ∧
    (let p := { sampleLaunch with map := { base := 0xFFFFFFFF, size := 1, readable := true, writable := true, executable := false } :: sampleLaunch.map }
     launch p = .refused .launchNotAdmitted ∧ readable p.map 0xFFFFFFFF = true ∧ initByte p 0xFFFFFFFF = none) ∧
    (let p := { sampleLaunch with initMem := [(0x100, 0x93), (0x101, 0x00), (0x102, 0x50)] }
     launch p = .refused .launchNotAdmitted ∧ executable p.map 0x103 = true ∧ initByte p 0x103 = none) ∧
    ∃ s, launch sampleLaunch = .next s :=
  ⟨⟨rfl, by decide, by decide⟩, ⟨rfl, by decide, by decide⟩, ⟨rfl, by decide, by decide⟩, _, rfl⟩

/-- Both clauses: `HALT_PC` elsewhere, and `HALT_PC` at the misaligned entry. -/
theorem witness_MisalignedEntryRaisesAtFirstStep :
    (let p := { sampleLaunch with entryPc := 2 }
     LaunchAdmitted p ∧ p.entryPc.toNat % 4 ≠ 0 ∧ p.entryPc ≠ p.haltPc) ∧
    (let p := { sampleLaunch with entryPc := 2, haltPc := 2 }
     LaunchAdmitted p ∧ p.entryPc.toNat % 4 ≠ 0 ∧ p.entryPc = p.haltPc) :=
  ⟨⟨⟨sampleLaunch_admitted.map, sampleLaunch_admitted.init⟩, by decide, by decide⟩,
    ⟨⟨sampleLaunch_admitted.map, sampleLaunch_admitted.init⟩, by decide, by decide⟩⟩

end Sys2Proof.Tests.Slice0
end

section
/-! The x0 rule (10_state.md R21): a write to x0 is discarded and the rest of the instruction happens. An instruction
with an rd field ends in one of three ways (`writeAndAdvance`, `jumpAndLink`, `loadInto`); the rule is proved for each
way, and every instruction takes it from there. -/

namespace Sys2Proof.Machine

/-- Giving back the registers of the start undoes a register write. -/
theorem writeReg_restore (s : State) (q : Reg) (v : Word) : { writeReg s q v with x := s.x } = s := by
  unfold writeReg; split <;> rfl

/-- Where `r` answers a next state, `r₀` answers that state with the registers of `s`. -/
def NextButRegs (s : State) (r r₀ : Result) : Prop := ∀ t, r = .next t → r₀ = .next { t with x := s.x }

theorem nextButRegs_next {s u u₀ : State} (h : { u with x := s.x } = u₀) : NextButRegs s (.next u) (.next u₀) := by
  rintro t ⟨⟩
  rw [h]

/-- A fault writes no register, so it is the same fault with any rd. -/
theorem nextButRegs_raise (e : Raised) (s : State) : NextButRegs s (raise e s) (raise e s) := nextButRegs_next rfl

theorem nextButRegs_writeAndAdvance (q : Reg) (v : Word) (s : State) :
    NextButRegs s (writeAndAdvance q v s) (writeAndAdvance 0#5 v s) :=
  nextButRegs_next (congrArg advance (writeReg_restore s q v))

/-- The target is checked before the link is written, so rd has no part in which of the two happens. -/
theorem nextButRegs_jumpAndLink (q : Reg) (a : Word) (s : State) :
    NextButRegs s (jumpAndLink q a s) (jumpAndLink 0#5 a s) := by
  unfold jumpAndLink transfer
  split
  case isTrue => exact nextButRegs_raise _ s
  case isFalse => exact nextButRegs_next (congrArg (goTo · a) (writeReg_restore s q (s.pc + 4)))

/-- The read is the same with any rd: a load to x0 raises where any other would (43_load_store.md R170). -/
theorem nextButRegs_loadInto (w : Width) (extend : BitVec w.bits → Word) (q rs1 : Reg) (imm : Imm12) (s : State) :
    NextButRegs s (loadInto w extend q rs1 imm s) (loadInto w extend 0#5 rs1 imm s) := by
  unfold loadInto
  cases memRead s (effectiveAddress s rs1 imm) w with
  | ok v => exact nextButRegs_writeAndAdvance q (extend v) s
  | error e => exact nextButRegs_raise e s

/-- With rd = x0 an instruction that has an rd field does all that it does with rd = `q` but the register write. -/
theorem nextButRegs_exec_withDest {i : Instr} (hd : i.dest ≠ none) (q : Reg) (s : State) :
    NextButRegs s (exec (i.withDest q) s) (exec (i.withDest 0#5) s) := by
  cases i
  case beq | bne | blt | bltu | bge | bgeu | sw | sh | sb => exact absurd rfl hd
  case jal | jalr => exact nextButRegs_jumpAndLink q _ s
  case lw | lh | lhu | lb | lbu => exact nextButRegs_loadInto _ _ q _ _ s
  all_goals exact nextButRegs_writeAndAdvance q _ s

/-- Settles O9: x0 has no storage, and the rule for rd = x0 follows from the three ways an instruction with an rd
field ends. -/
theorem writeToX0IsDiscarded : Obligations.WriteToX0IsDiscarded :=
  ⟨readReg_zero, fun _ q s t h hd => nextButRegs_exec_withDest hd q s t h⟩

end Sys2Proof.Machine
end

section
/-! The effective address of a load or store (20_memory.md R62), on exact integers. -/

namespace Sys2Proof.Machine

/-- The unsigned value of the word an integer is reduced to. -/
theorem word_ofInt_toNat (k : Int) : ((BitVec.ofInt 32 k).toNat : Int) = k % 2 ^ 32 := by
  rw [BitVec.toNat_ofInt]
  exact Int.toNat_of_nonneg (Int.emod_nonneg k (by decide))

/-- Base and offset are added as integers and reduced once: the sign extension leaves the offset's value as it is. -/
theorem effectiveAddress_ofInt (s : State) (rs1 : Reg) (imm : Imm12) :
    effectiveAddress s rs1 imm = BitVec.ofInt 32 ((readReg s rs1).toInt + imm.toInt) := by
  rw [effectiveAddress, immOperand, add_ofInt, signExtend12_toInt]

/-- Settles O21: the effective address is the word of the integer sum, and its value is that sum modulo 2^32. -/
theorem effectiveAddressWraps : Obligations.EffectiveAddressWraps := by
  intro s rs1 imm
  rw [effectiveAddress_ofInt, word_ofInt_toNat]

end Sys2Proof.Machine
end

section
/-! Illegal words (30_encoding.md R85): the decoder rejects a word exactly when it is in one of the seven classes. The
classes read bits of the word as numbers and the decoder reads fields; once the two readings are the same, the opcode
says which class can apply, and funct3 and funct7 whether it does. -/

namespace Sys2Proof

/-! ### The fields as numbers -/

theorem wordBits_eq_extractLsb' (w : Word) (hi lo : Nat) :
    wordBits w hi lo = (w.extractLsb' lo (hi + 1 - lo)).toNat := by
  rw [wordBits, BitVec.extractLsb'_toNat, Nat.shiftRight_eq_div_pow]

theorem wordBits_opcode (w : Word) : wordBits w 6 0 = (opcodeOf w).toNat := wordBits_eq_extractLsb' w 6 0
theorem wordBits_funct3 (w : Word) : wordBits w 14 12 = (funct3Of w).toNat := wordBits_eq_extractLsb' w 14 12
theorem wordBits_funct3S (w : Word) : wordBits w 9 7 = (funct3OfS w).toNat := wordBits_eq_extractLsb' w 9 7
theorem wordBits_funct7 (w : Word) : wordBits w 31 25 = (funct7Of w).toNat := wordBits_eq_extractLsb' w 31 25

/-- A funct3 field, value by value. -/
theorem funct3_elim {motive : BitVec 3 → Prop} (zero : motive 0) (one : motive 1) (two : motive 2) (three : motive 3)
    (four : motive 4) (five : motive 5) (six : motive 6) (seven : motive 7) (f : BitVec 3) : motive f := by
  have eight : f = 0 ∨ f = 1 ∨ f = 2 ∨ f = 3 ∨ f = 4 ∨ f = 5 ∨ f = 6 ∨ f = 7 := by revert f; decide
  rcases eight with rfl | rfl | rfl | rfl | rfl | rfl | rfl | rfl <;> assumption

/-- The two printed patterns of a funct7 field, and every other. -/
theorem funct7_cases (f : BitVec 7) : f = 0 ∨ f = 0b0100000 ∨ (f.toNat ≠ 0 ∧ f.toNat ≠ 0b0100000) := by
  bv_omega

/-! ### Within an opcode the decoder rejects the class of that opcode and nothing else -/

theorem decode_isOk_of_jalr {w : Word} (h : opcodeOf w = opJalr) : (decode w).isOk = !illegalJalr w := by
  simp only [decode, illegalJalr, wordBits_opcode, wordBits_funct3, h]
  cases funct3Of w using funct3_elim <;> rfl

theorem decodeLoad_isOk {w : Word} (h : opcodeOf w = opLoad) : (decodeLoad w).isOk = !illegalLoad w := by
  simp only [decodeLoad, illegalLoad, wordBits_opcode, wordBits_funct3, h]
  cases funct3Of w using funct3_elim <;> rfl

theorem decodeStore_isOk {w : Word} (h : opcodeOf w = opStore) : (decodeStore w).isOk = !illegalStore w := by
  simp only [decodeStore, illegalStore, wordBits_opcode, wordBits_funct3S, h]
  cases funct3OfS w using funct3_elim <;> rfl

theorem decodeBranch_isOk {w : Word} (h : opcodeOf w = opBranch) : (decodeBranch w).isOk = !illegalBranch w := by
  simp only [decodeBranch, illegalBranch, wordBits_opcode, wordBits_funct3S, h]
  cases funct3OfS w using funct3_elim <;> rfl

/-- Only the two funct3 values of the shifts look at bits 31..25 (R78). -/
theorem decodeOpImm_isOk {w : Word} (h : opcodeOf w = opOpImm) : (decodeOpImm w).isOk = !illegalShift w := by
  simp only [decodeOpImm, illegalShift, wordBits_opcode, wordBits_funct3, wordBits_funct7, h]
  cases funct3Of w using funct3_elim
  case one | five =>
    rcases funct7_cases (funct7Of w) with h7 | h7 | ⟨h70, h720⟩
    · rw [h7]; rfl
    · rw [h7]; rfl
    · simp [h70, h720, opOpImm, Except.isOk, Except.toBool, BitVec.toNat_eq]
  all_goals rfl

theorem decodeOp_isOk {w : Word} (h : opcodeOf w = opOp) : (decodeOp w).isOk = !illegalOp w := by
  simp only [decodeOp, illegalOp, wordBits_opcode, wordBits_funct3, wordBits_funct7, h]
  rcases funct7_cases (funct7Of w) with h7 | h7 | ⟨h70, h720⟩
  · rw [h7]; cases funct3Of w using funct3_elim <;> rfl
  · rw [h7]; cases funct3Of w using funct3_elim <;> rfl
  · simp [h70, h720, opOp, Except.isOk, Except.toBool, BitVec.toNat_eq]

/-! ### The opcode says which class can apply -/

/-- Class 1 is the opcodes that are none of the nine. -/
theorem opcode_cases (w : Word) :
    illegalOpcode w = true ∧
      opcodeOf w ∉ [opLui, opAuipc, opJal, opJalr, opBranch, opLoad, opStore, opOpImm, opOp] ∨
    illegalOpcode w = false ∧
      (opcodeOf w = opLui ∨ opcodeOf w = opAuipc ∨ opcodeOf w = opJal ∨ opcodeOf w = opJalr ∨ opcodeOf w = opBranch ∨
        opcodeOf w = opLoad ∨ opcodeOf w = opStore ∨ opcodeOf w = opOpImm ∨ opcodeOf w = opOp) := by
  rw [illegalOpcode, wordBits_opcode]
  generalize opcodeOf w = op
  revert op; decide

/-- Well-formedness in the order in which the decoder asks for the opcode. -/
theorem wordWellFormed_of_opcode (w : Word) : wordWellFormed w =
    if opcodeOf w = opLui then true
    else if opcodeOf w = opAuipc then true
    else if opcodeOf w = opJal then true
    else if opcodeOf w = opJalr then !illegalJalr w
    else if opcodeOf w = opBranch then !illegalBranch w
    else if opcodeOf w = opLoad then !illegalLoad w
    else if opcodeOf w = opStore then !illegalStore w
    else if opcodeOf w = opOpImm then !illegalShift w
    else if opcodeOf w = opOp then !illegalOp w
    else false := by
  rcases opcode_cases w with ⟨hi, h⟩ | ⟨hi, h⟩
  · simp only [List.mem_cons, not_or] at h
    simp [wordWellFormed, hi, h]
  · simp only [wordWellFormed, hi, illegalJalr, illegalBranch, illegalLoad, illegalStore, illegalShift, illegalOp,
      wordBits_opcode]
    rcases h with h | h | h | h | h | h | h | h | h <;>
      simp [h, opLui, opAuipc, opJal, opJalr, opBranch, opLoad, opStore, opOpImm, opOp]

/-- The decoder accepts exactly the words that are in none of the seven classes. -/
theorem decode_isOk (w : Word) : (decode w).isOk = wordWellFormed w := by
  rw [wordWellFormed_of_opcode]
  rcases opcode_cases w with ⟨-, other⟩ | ⟨-, lui | auipc | jal | jalr | branch | load | store | opImm | op⟩
  · simp only [List.mem_cons, not_or] at other
    simp only [decode, other, if_false]
    rfl
  · rw [decode, lui]; rfl
  · rw [decode, auipc]; rfl
  · rw [decode, jal]; rfl
  · rw [decode_isOk_of_jalr jalr, jalr]; rfl
  · rw [decode, branch]; exact decodeBranch_isOk branch
  · rw [decode, load]; exact decodeLoad_isOk load
  · rw [decode, store]; exact decodeStore_isOk store
  · rw [decode, opImm]; exact decodeOpImm_isOk opImm
  · rw [decode, op]; exact decodeOp_isOk op

theorem decode_ok_of_wellFormed {w : Word} (h : wordWellFormed w = true) : ∃ i, decode w = .ok i := by
  rw [← decode_isOk] at h
  cases hd : decode w with
  | ok i => exact ⟨i, rfl⟩
  | error e => rw [hd] at h; cases h

theorem decode_error_of_illFormed {w : Word} (h : wordWellFormed w = false) : ∃ e, decode w = .error e := by
  rw [← decode_isOk] at h
  cases hd : decode w with
  | ok i => rw [hd] at h; cases h
  | error e => exact ⟨e, rfl⟩

end Sys2Proof

namespace Sys2Proof.Machine

/-- Fetching a word that the decoder rejects (10_state.md R36, item 4). -/
theorem fetchInstr_of_illegal_word {s : State} {w : Word} {e : Illegal} (ha : s.pc.toNat % 4 = 0)
    (hf : fetch s s.pc = .ok w) (hd : decode w = .error e) : fetchInstr s = .error ⟨.illegalInstruction, w⟩ := by
  rcases fetch_cases s s.pc with ⟨-, hx⟩ | ⟨hx, hw⟩
  · cases hf.symm.trans hx
  · cases hf.symm.trans hw
    exact fetchInstr_illegal ha hx hd

/-- Settles O5: the decoder rejects exactly the seven classes, and a step that fetches a rejected word raises. -/
theorem illegalWordsRaise : Obligations.IllegalWordsRaise := by
  refine fun w => ⟨decode_ok_of_wellFormed, fun hw s hr hp ha hf => ?_⟩
  obtain ⟨e, he⟩ := decode_error_of_illFormed hw
  rw [step_of_fetch_error hr hp (fetchInstr_of_illegal_word ha hf he)]
  exact raise_raisedIn _ s

end Sys2Proof.Machine
end

section
/-! Branches (42_control_transfer.md R143) and their reversed forms (30_encoding.md R89): every branch meaning is
`branchIf` of its condition, so an outcome is the rule of R143 with the condition spelled out. -/

namespace Sys2Proof.Machine

/-! ### The comparisons as orders on exact integers (00_scope.md R9) -/

theorem ltSigned_eq_true {a b : Word} : ltSigned a b = true ↔ a.toInt < b.toInt := decide_eq_true_iff

theorem ltUnsigned_eq_true {a b : Word} : ltUnsigned a b = true ↔ a.toNat < b.toNat := decide_eq_true_iff

theorem not_ltSigned_eq_true {a b : Word} : (!ltSigned a b) = true ↔ b.toInt ≤ a.toInt := by
  rw [Bool.not_eq_true', ← Bool.not_eq_true, ltSigned_eq_true, not_lt]

theorem not_ltUnsigned_eq_true {a b : Word} : (!ltUnsigned a b) = true ↔ b.toNat ≤ a.toNat := by
  rw [Bool.not_eq_true', ← Bool.not_eq_true, ltUnsigned_eq_true, not_lt]

/-! ### The outcome of a branch -/

/-- Doubling the sign-extended field stays inside 32 bits, so the offset is exact (R80). -/
theorem branchOffset_toInt (imm : Imm12) : (branchOffset imm).toInt = 2 * imm.toInt := by
  have range := imm12_range imm
  have value := signExtend12_toInt imm
  rw [branchOffset, double_toInt _ (by omega), value]

theorem branchTarget_eq_scaledTarget (s : State) (imm : Imm12) : branchTarget s imm = scaledTarget s imm.toInt := by
  rw [branchTarget, add_ofInt, branchOffset_toInt, scaledTarget]

theorem onlyRegsAndPc_advance (s : State) : OnlyRegsAndPc s (advance s) := ⟨fun _ => rfl, rfl, rfl, rfl, rfl⟩

theorem onlyRegsAndPc_goTo (s : State) (t : Word) : OnlyRegsAndPc s (goTo s t) := ⟨fun _ => rfl, rfl, rfl, rfl, rfl⟩

/-- An instruction that is `branchIf` of a test has the outcome of a branch whose condition the test decides. -/
theorem branchOutcome_of_exec {i : Instr} {s : State} {c : Bool} {imm : Imm12} {taken : Prop}
    (he : exec i s = branchIf c imm s) (hc : c = true ↔ taken) :
    BranchOutcome i s taken (scaledTarget s imm.toInt) := by
  simp only [BranchOutcome, Raises, he, ← hc, ← branchTarget_eq_scaledTarget]
  rcases branchIf_cases c imm s with ⟨rfl, hb⟩ | ⟨rfl, ht, hb⟩ | ⟨rfl, ht, hb⟩
  · simp [hb, SameRegs, onlyRegsAndPc_advance]
  · simp [hb, ht, SameRegs, onlyRegsAndPc_goTo]
  · simp [hb, ht, raise_raisedIn]

/-- Settles O8: with the operands reversed, `x[rt] < x[rs]` is the condition greater-than of `rs` and `rt`, and its
negation is less-or-equal. -/
theorem reversedBranches : Obligations.ReversedBranches := fun _ _ _ _ =>
  ⟨branchOutcome_of_exec rfl ltSigned_eq_true, branchOutcome_of_exec rfl ltUnsigned_eq_true,
    branchOutcome_of_exec rfl not_ltSigned_eq_true, branchOutcome_of_exec rfl not_ltUnsigned_eq_true⟩

end Sys2Proof.Machine
end

section
/-! Decode after encode (30_encoding.md R84): the fields of a written word are what the format put there, so the decoder
finds the opcode and the function fields of the instruction's own row. -/

namespace Sys2Proof

/-! ### The opcode says which part of the decoder reads a word -/

theorem decode_of_opBranch {w : Word} (h : opcodeOf w = opBranch) : decode w = decodeBranch w := by
  rw [decode, h]; rfl

theorem decode_of_opLoad {w : Word} (h : opcodeOf w = opLoad) : decode w = decodeLoad w := by
  rw [decode, h]; rfl

theorem decode_of_opStore {w : Word} (h : opcodeOf w = opStore) : decode w = decodeStore w := by
  rw [decode, h]; rfl

theorem decode_of_opOpImm {w : Word} (h : opcodeOf w = opOpImm) : decode w = decodeOpImm w := by
  rw [decode, h]; rfl

theorem decode_of_opOp {w : Word} (h : opcodeOf w = opOp) : decode w = decodeOp w := by
  rw [decode, h]; rfl

/-! ### Every instruction is read back from its own word -/

theorem decode_encode (i : Instr) : decode (encode i) = .ok i := by
  cases i
  case addi | slti | sltiu | andi | ori | xori =>
    rw [encode, decode_of_opOpImm (opcodeOf_packI ..)]
    simp [decodeOpImm]
  case slli | srli | srai =>
    rw [encode, decode_of_opOpImm (opcodeOf_packR ..)]
    simp [decodeOpImm]
  case lui | auipc | jal => simp [encode, decode, opLui, opAuipc, opJal]
  case add | slt | sltu | and | or | xor | sll | srl | sub | sra =>
    rw [encode, decode_of_opOp (opcodeOf_packR ..)]
    simp [decodeOp]
  case jalr => simp [encode, decode, opLui, opAuipc, opJal, opJalr]
  case beq | bne | blt | bltu | bge | bgeu =>
    rw [encode, decode_of_opBranch (opcodeOf_packS ..)]
    simp [decodeBranch]
  case lw | lh | lhu | lb | lbu =>
    rw [encode, decode_of_opLoad (opcodeOf_packI ..)]
    simp [decodeLoad]
  case sw | sh | sb =>
    rw [encode, decode_of_opStore (opcodeOf_packS ..)]
    simp [decodeStore]

end Sys2Proof
end

section
/-! Register-immediate instructions (40_integer_register_immediate.md): each is `writeAndAdvance` of one value, so what an
instruction computes is that value as the spec's arithmetic gives it. -/

namespace Sys2Proof.Machine

/-- An instruction that is `writeAndAdvance` of a value computes that value, however it is written (R100, R120). -/
theorem computes_of_exec {i : Instr} {s : State} {rd : Reg} {v v' : Word} (he : exec i s = writeAndAdvance rd v s)
    (hv : v = v') : Computes i s rd v' :=
  ⟨_, hv ▸ he, computed_writeAndAdvance s rd v'⟩

/-! ### The immediates as operands -/

theorem immOperand_toInt (imm : Imm12) : (immOperand imm).toInt = imm.toInt := signExtend12_toInt imm

/-- Read as unsigned, the sign-extended immediate is its signed value modulo 2^32. -/
theorem immOperand_toNat (imm : Imm12) : ((immOperand imm).toNat : Int) = imm.toInt % 2 ^ 32 :=
  word_ofInt_toNat imm.toInt

/-- Sign extension bit by bit: the field's own bits below 12, its top bit above. -/
theorem immOperand_getLsbD (imm : Imm12) {k : Nat} (hk : k < 32) :
    (immOperand imm).getLsbD k = imm.getLsbD (if k < 12 then k else 11) := by
  rw [immOperand, BitVec.getLsbD_signExtend, BitVec.msb_eq_getLsbD_last]
  split <;> simp [hk]

theorem immOperand_eq_of_getLsbD {imm : Imm12} {ext : Word}
    (h : ∀ k, k < 32 → ext.getLsbD k = imm.getLsbD (if k < 12 then k else 11)) : immOperand imm = ext :=
  BitVec.eq_of_getLsbD_eq fun k hk => (immOperand_getLsbD imm hk).trans (h k hk).symm

theorem upperOperand_ofNat (imm : Imm20) : upperOperand imm = BitVec.ofNat 32 (imm.toNat * 4096) := by
  rw [← concat12_toNat, upperOperand, BitVec.ofNat_toNat, BitVec.setWidth_eq]

/-! ### The values computed -/

/-- What a set-less-than writes, with the comparison said on exact numbers. -/
theorem boolWord_of_iff {c : Bool} {p : Prop} [Decidable p] (h : c = true ↔ p) : boolWord c = if p then 1 else 0 :=
  if_congr h rfl rfl

theorem add_immOperand (x : Word) (imm : Imm12) : x + immOperand imm = BitVec.ofInt 32 (x.toInt + imm.toInt) := by
  rw [add_ofInt, immOperand_toInt]

theorem ltSigned_immOperand {x : Word} {imm : Imm12} : ltSigned x (immOperand imm) = true ↔ x.toInt < imm.toInt := by
  rw [ltSigned_eq_true, immOperand_toInt]

theorem ltUnsigned_immOperand {x : Word} {imm : Imm12} :
    ltUnsigned x (immOperand imm) = true ↔ (x.toNat : Int) < imm.toInt % 2 ^ 32 := by
  rw [ltUnsigned_eq_true, ← immOperand_toNat, Int.ofNat_lt]

theorem add_upperOperand (x : Word) (imm : Imm20) :
    x + upperOperand imm = BitVec.ofNat 32 (x.toNat + imm.toNat * 4096) := by
  rw [BitVec.ofNat_add, ← upperOperand_ofNat, BitVec.ofNat_toNat, BitVec.setWidth_eq]

/-! ### The statements -/

open Sys2Proof.Laws

/-- Settles O29: the sum of words is the integer sum reduced to 32 bits, and sign extension keeps the immediate's value. -/
theorem addiAdds : Obligations.AddiAdds := fun _ _ _ _ =>
  ⟨hasRow_of_encodesRow rfl (EncodesRow.addi ..), decode_encode (.addi ..), computes_of_exec rfl (add_immOperand ..)⟩

/-- Settles O30: sign extension keeps the signed value of the immediate, and its unsigned value is that modulo 2^32. -/
theorem sltiAndSltiuCompare : Obligations.SltiAndSltiuCompare := fun _ _ _ _ =>
  ⟨hasRow_of_encodesRow rfl (EncodesRow.slti ..), decode_encode (.slti ..),
    hasRow_of_encodesRow rfl (EncodesRow.sltiu ..), decode_encode (.sltiu ..),
    computes_of_exec rfl (boolWord_of_iff ltSigned_immOperand),
    computes_of_exec rfl (boolWord_of_iff ltUnsigned_immOperand)⟩

/-- Settles O31: the word described bit by bit is the operand, and the meanings are the bitwise operations on it. -/
theorem logicalImmediates : Obligations.LogicalImmediates := by
  intro rd rs1 imm s
  refine ⟨hasRow_of_encodesRow rfl (EncodesRow.andi ..), decode_encode (.andi ..),
    hasRow_of_encodesRow rfl (EncodesRow.ori ..), decode_encode (.ori ..),
    hasRow_of_encodesRow rfl (EncodesRow.xori ..), decode_encode (.xori ..), fun ext hext => ?_⟩
  obtain rfl := immOperand_eq_of_getLsbD hext
  exact ⟨computes_of_exec rfl rfl, computes_of_exec rfl rfl, computes_of_exec rfl rfl⟩

/-- Settles O32: a shift by `n` is a product or a quotient by `2 ^ n`. -/
theorem shiftsByConstant : Obligations.ShiftsByConstant := fun _ _ _ _ =>
  ⟨hasRow_of_encodesRow rfl (EncodesRow.slli ..), decode_encode (.slli ..),
    hasRow_of_encodesRow rfl (EncodesRow.srli ..), decode_encode (.srli ..),
    hasRow_of_encodesRow rfl (EncodesRow.srai ..), decode_encode (.srai ..),
    computes_of_exec rfl (shiftLeft_ofNat ..), computes_of_exec rfl (shiftRight_ofNat ..),
    computes_of_exec rfl (sshiftRight_ofInt ..)⟩

/-- Settles O33: the U-immediate is its field times 4096, and AUIPC adds it to the pc of the state it runs in. -/
theorem upperImmediates : Obligations.UpperImmediates := fun _ _ _ =>
  ⟨hasRow_of_encodesRow rfl (EncodesRow.lui ..), decode_encode (.lui ..),
    hasRow_of_encodesRow rfl (EncodesRow.auipc ..), decode_encode (.auipc ..),
    computes_of_exec rfl (upperOperand_ofNat _), computes_of_exec rfl (add_upperOperand ..)⟩

end Sys2Proof.Machine
end

section
/-! Register-register instructions (41_integer_register_register.md): each is `writeAndAdvance` of one value of the two
sources (R120), so each statement turns on that value written in the spec's arithmetic. -/

namespace Sys2Proof.Machine

/-- The low five bits of a register are its value modulo 32, so bits 31..5 do not matter to a shift. -/
theorem shiftByRegister_eq_mod (v : Word) : shiftByRegister v = v.toNat % 32 := by
  rw [shiftByRegister, BitVec.extractLsb'_toNat, Nat.shiftRight_zero]

theorem shiftLeft_shiftByRegister (x y : Word) :
    x <<< shiftByRegister y = BitVec.ofNat 32 (x.toNat * 2 ^ (y.toNat % 32)) := by
  rw [shiftByRegister_eq_mod, shiftLeft_ofNat]

theorem shiftRight_shiftByRegister (x y : Word) :
    x >>> shiftByRegister y = BitVec.ofNat 32 (x.toNat / 2 ^ (y.toNat % 32)) := by
  rw [shiftByRegister_eq_mod, shiftRight_ofNat]

theorem sshiftRight_shiftByRegister (x y : Word) :
    x.sshiftRight (shiftByRegister y) = BitVec.ofInt 32 (x.toInt.fdiv (2 ^ (y.toNat % 32))) := by
  rw [shiftByRegister_eq_mod, sshiftRight_ofInt]

/-! ### The statements -/

open Sys2Proof.Laws

/-- Settles O34: the sum and the difference of words are those of the integers reduced to 32 bits. -/
theorem addAndSub : Obligations.AddAndSub := fun _ _ _ _ =>
  ⟨hasRow_of_encodesRow rfl (EncodesRow.add ..), decode_encode (.add ..),
    hasRow_of_encodesRow rfl (EncodesRow.sub ..), decode_encode (.sub ..),
    computes_of_exec rfl (add_ofInt ..), computes_of_exec rfl (sub_ofInt ..)⟩

/-- Settles O35: the model's comparisons are the orders on the signed and on the unsigned values. -/
theorem sltAndSltuCompare : Obligations.SltAndSltuCompare := fun _ _ _ _ =>
  ⟨hasRow_of_encodesRow rfl (EncodesRow.slt ..), decode_encode (.slt ..),
    hasRow_of_encodesRow rfl (EncodesRow.sltu ..), decode_encode (.sltu ..),
    computes_of_exec rfl (boolWord_of_iff ltSigned_eq_true),
    computes_of_exec rfl (boolWord_of_iff ltUnsigned_eq_true)⟩

/-- Settles O36: the meanings are the bitwise operations themselves. -/
theorem logicalRegisters : Obligations.LogicalRegisters := fun _ _ _ _ =>
  ⟨hasRow_of_encodesRow rfl (EncodesRow.and ..), decode_encode (.and ..),
    hasRow_of_encodesRow rfl (EncodesRow.or ..), decode_encode (.or ..),
    hasRow_of_encodesRow rfl (EncodesRow.xor ..), decode_encode (.xor ..),
    computes_of_exec rfl rfl, computes_of_exec rfl rfl, computes_of_exec rfl rfl⟩

/-- Settles O37: the count is x[rs2] modulo 32, and a shift by `n` is a product or a quotient by `2 ^ n`. -/
theorem shiftsByRegister : Obligations.ShiftsByRegister := fun _ _ _ _ =>
  ⟨hasRow_of_encodesRow rfl (EncodesRow.sll ..), decode_encode (.sll ..),
    hasRow_of_encodesRow rfl (EncodesRow.srl ..), decode_encode (.srl ..),
    hasRow_of_encodesRow rfl (EncodesRow.sra ..), decode_encode (.sra ..),
    computes_of_exec rfl (shiftLeft_shiftByRegister ..), computes_of_exec rfl (shiftRight_shiftByRegister ..),
    computes_of_exec rfl (sshiftRight_shiftByRegister ..)⟩

end Sys2Proof.Machine
end

section
/-! Control transfer (42_control_transfer.md): JAL and JALR are `jumpAndLink` of their target and each branch is
`branchIf` of its condition, so what is left is the target as the spec's arithmetic gives it and the condition as a
comparison. -/

namespace Sys2Proof.Machine

/-! ### The outcome of a jump (R140) -/

theorem regWritten_goTo_writeReg (s : State) (rd : Reg) (v t : Word) :
    RegWritten s (goTo (writeReg s rd v) t) rd v := fun r => by
  rw [readReg_goTo, readReg_writeReg]

/-- A register write and a jump leave memory, the run status and the launch parameters alone. -/
theorem onlyRegsAndPc_goTo_writeReg (s : State) (rd : Reg) (v t : Word) :
    OnlyRegsAndPc s (goTo (writeReg s rd v) t) :=
  ⟨fun a => by rw [byteAt_goTo, byteAt_writeReg], writeReg_status s rd v, writeReg_byteOrder s rd v,
    writeReg_map s rd v, writeReg_haltPc s rd v⟩

/-- An instruction that is `jumpAndLink` to a target has the outcome of a jump there, however the target is written. -/
theorem jumpOutcome_of_exec {i : Instr} {rd : Reg} {s : State} {t target : Word} (he : exec i s = jumpAndLink rd t s)
    (ht : t = target) : JumpOutcome i rd s target := by
  subst ht
  rcases jumpAndLink_cases rd t s with ⟨haligned, hnext⟩ | ⟨hmisaligned, hraise⟩
  · exact ⟨fun h => absurd haligned h, fun _ =>
      ⟨_, he.trans hnext, regWritten_goTo_writeReg s rd _ t, rfl, onlyRegsAndPc_goTo_writeReg s rd _ t⟩⟩
  · refine ⟨fun _ => ?_, fun h => absurd h hmisaligned⟩
    rw [Raises, he, hraise]
    exact raise_raisedIn _ s

/-! ### The targets of the jumps -/

/-- Doubling the sign-extended 20-bit field stays inside 32 bits, so the offset is exact (R82). -/
theorem jalOffset_toInt (imm : Imm20) : (jalOffset imm).toInt = 2 * imm.toInt := by
  have range := imm20_range imm
  have value := signExtend20_toInt imm
  rw [jalOffset, double_toInt _ (by omega), value]

theorem jalTarget_eq_scaledTarget (s : State) (imm : Imm20) : jalTarget s imm = scaledTarget s imm.toInt := by
  rw [jalTarget, add_ofInt, jalOffset_toInt, scaledTarget]

/-- Clearing bit 0 of the sum rounds it down to an even number (R142). -/
theorem jalrTarget_ofNat (s : State) (rs1 : Reg) (imm : Imm12) : jalrTarget s rs1 imm =
    BitVec.ofNat 32 ((BitVec.ofInt 32 ((readReg s rs1).toInt + imm.toInt)).toNat / 2 * 2) := by
  rw [jalrTarget, clearBit0_ofNat, add_immOperand]

/-! ### The statements -/

open Sys2Proof.Laws

/-- Settles O38: the target is checked before the link is written, and it is pc plus twice the signed field. -/
theorem jalJumps : Obligations.JalJumps := fun _ _ _ =>
  ⟨hasRow_of_encodesRow rfl (EncodesRow.jal ..), decode_encode (.jal ..),
    jumpOutcome_of_exec rfl (jalTarget_eq_scaledTarget ..)⟩

/-- Settles O39: the target comes from x[rs1] of the state before the link is written, so rd = rs1 is no exception. -/
theorem jalrJumps : Obligations.JalrJumps := fun _ _ _ _ =>
  ⟨hasRow_of_encodesRow rfl (EncodesRow.jalr ..), decode_encode (.jalr ..),
    jumpOutcome_of_exec rfl (jalrTarget_ofNat ..)⟩

/-- Settles O40: the tests of BEQ and BNE decide equality of the two registers and its negation. -/
theorem branchesOnEquality : Obligations.BranchesOnEquality := fun _ _ _ _ =>
  ⟨hasRow_of_encodesRow rfl (EncodesRow.beq ..), decode_encode (.beq ..),
    hasRow_of_encodesRow rfl (EncodesRow.bne ..), decode_encode (.bne ..),
    branchOutcome_of_exec rfl beq_iff_eq, branchOutcome_of_exec rfl bne_iff_ne⟩

/-- Settles O41: BLT tests the order of the signed values, and BGE, its negation, tests greater-or-equal. -/
theorem branchesOnSignedOrder : Obligations.BranchesOnSignedOrder := fun _ _ _ _ =>
  ⟨hasRow_of_encodesRow rfl (EncodesRow.blt ..), decode_encode (.blt ..),
    hasRow_of_encodesRow rfl (EncodesRow.bge ..), decode_encode (.bge ..),
    branchOutcome_of_exec rfl ltSigned_eq_true, branchOutcome_of_exec rfl not_ltSigned_eq_true⟩

/-- Settles O42: BLTU tests the order of the unsigned values, and BGEU, its negation, tests greater-or-equal. -/
theorem branchesOnUnsignedOrder : Obligations.BranchesOnUnsignedOrder := fun _ _ _ _ =>
  ⟨hasRow_of_encodesRow rfl (EncodesRow.bltu ..), decode_encode (.bltu ..),
    hasRow_of_encodesRow rfl (EncodesRow.bgeu ..), decode_encode (.bgeu ..),
    branchOutcome_of_exec rfl ltUnsigned_eq_true, branchOutcome_of_exec rfl not_ltUnsigned_eq_true⟩

end Sys2Proof.Machine
end

section
/-! Loads and stores (43_load_store.md): each load is `loadInto` and each store `storeFrom` of its width, so the checks, the
frame and the faults are proved once for every width. What is left to an instruction is how a load extends the number it
reads, and that the bytes a store writes are those of x[rs2]. -/

namespace Sys2Proof.Machine

/-- An instruction whose meaning is to raise raises, and changes nothing but the run status (60_exceptions.md R180). -/
theorem raises_of_exec {i : Instr} {s : State} {e : Raised} (he : exec i s = raise e s) : Raises i s e.cause e.info := by
  rw [Raises, he]
  exact raise_raisedIn e s

/-! ### What a load answers (R160, R170) -/

/-- The checks of a load, in the order of R170, and what it answers on each; exactly one case holds. -/
theorem loadInto_outcomes (w : Width) (extend : BitVec w.bits → Word) (rd rs1 : Reg) (imm : Imm12) (s : State) :
    ((effectiveAddress s rs1 imm).toNat % w.bytes ≠ 0 ∧
      loadInto w extend rd rs1 imm s = raise ⟨.loadAddressMisaligned, effectiveAddress s rs1 imm⟩ s) ∨
    ((effectiveAddress s rs1 imm).toNat % w.bytes = 0 ∧
      ¬ EveryByte w.bytes (effectiveAddress s rs1 imm) (readable s.map) ∧
      loadInto w extend rd rs1 imm s = raise ⟨.loadAccessFault, effectiveAddress s rs1 imm⟩ s) ∨
    ((effectiveAddress s rs1 imm).toNat % w.bytes = 0 ∧
      EveryByte w.bytes (effectiveAddress s rs1 imm) (readable s.map) ∧
      loadInto w extend rd rs1 imm s = writeAndAdvance rd
        (extend (assemble s.byteOrder (fun k => byteAt s (addrPlus (effectiveAddress s rs1 imm) k)) w)) s) := by
  unfold loadInto
  rcases memRead_cases s (effectiveAddress s rs1 imm) w with ⟨ha, h⟩ | ⟨ha, hr, h⟩ | ⟨ha, hr, h⟩ <;> rw [h]
  · exact .inl ⟨ha, rfl⟩
  · exact .inr (.inl ⟨ha, hr, rfl⟩)
  · exact .inr (.inr ⟨ha, hr, rfl⟩)

theorem misalignedRaises_of_loadInto {i : Instr} {w : Width} {extend : BitVec w.bits → Word} {rd rs1 : Reg} {imm : Imm12}
    {s : State} (he : exec i s = loadInto w extend rd rs1 imm s) :
    MisalignedRaises i w.bytes .loadAddressMisaligned rs1 imm s := fun hmis => by
  rcases loadInto_outcomes w extend rd rs1 imm s with ⟨-, h⟩ | ⟨ha, -⟩ | ⟨ha, -⟩
  · exact raises_of_exec (he.trans h)
  · exact absurd ha hmis
  · exact absurd ha hmis

/-- An instruction that is `loadInto` has the outcome of a load of the value its extension makes of the number read. -/
theorem loadOutcome_of_loadInto {i : Instr} {w : Width} {extend : BitVec w.bits → Word} {rd rs1 : Reg} {imm : Imm12}
    {s : State} {value : Nat → Word} (he : exec i s = loadInto w extend rd rs1 imm s)
    (hv : ∀ x, extend x = value x.toNat) :
    LoadOutcome i w.bytes rd rs1 imm s (value (accessNat s (effectiveAddress s rs1 imm) w.bytes)) := by
  rcases loadInto_outcomes w extend rd rs1 imm s with ⟨hmis, -⟩ | ⟨-, hnot, h⟩ | ⟨-, hall, h⟩
  · exact ⟨fun ha => absurd ha hmis, fun ha => absurd ha hmis⟩
  · exact ⟨fun _ _ => raises_of_exec (he.trans h), fun _ hall => absurd hall hnot⟩
  · refine ⟨fun _ hnot => absurd hall hnot, fun _ _ => computes_of_exec (he.trans h) ?_⟩
    rw [hv, assemble_toNat]

/-! ### What a store answers (R160, R170) -/

/-- The checks of a store, in the order of R170, and what it answers on each; exactly one case holds. -/
theorem storeFrom_outcomes (w : Width) (rs2 rs1 : Reg) (imm : Imm12) (s : State) :
    ((effectiveAddress s rs1 imm).toNat % w.bytes ≠ 0 ∧
      storeFrom w rs2 rs1 imm s = raise ⟨.storeAddressMisaligned, effectiveAddress s rs1 imm⟩ s) ∨
    ((effectiveAddress s rs1 imm).toNat % w.bytes = 0 ∧
      ¬ EveryByte w.bytes (effectiveAddress s rs1 imm) (writable s.map) ∧
      storeFrom w rs2 rs1 imm s = raise ⟨.storeAccessFault, effectiveAddress s rs1 imm⟩ s) ∨
    ((effectiveAddress s rs1 imm).toNat % w.bytes = 0 ∧
      EveryByte w.bytes (effectiveAddress s rs1 imm) (writable s.map) ∧
      storeFrom w rs2 rs1 imm s = .next (advance { s with
        mem := putBytes s.mem (effectiveAddress s rs1 imm)
          (storedByte s.byteOrder w ((readReg s rs2).setWidth w.bits)) w.bytes })) := by
  unfold storeFrom
  rcases memWrite_cases s (effectiveAddress s rs1 imm) w ((readReg s rs2).setWidth w.bits) with
    ⟨ha, h⟩ | ⟨ha, hw, h⟩ | ⟨ha, hw, h⟩ <;> rw [h]
  · exact .inl ⟨ha, rfl⟩
  · exact .inr (.inl ⟨ha, hw, rfl⟩)
  · exact .inr (.inr ⟨ha, hw, rfl⟩)

theorem misalignedRaises_of_storeFrom {i : Instr} {w : Width} {rs2 rs1 : Reg} {imm : Imm12} {s : State}
    (he : exec i s = storeFrom w rs2 rs1 imm s) :
    MisalignedRaises i w.bytes .storeAddressMisaligned rs1 imm s := fun hmis => by
  rcases storeFrom_outcomes w rs2 rs1 imm s with ⟨-, h⟩ | ⟨ha, -⟩ | ⟨ha, -⟩
  · exact raises_of_exec (he.trans h)
  · exact absurd ha hmis
  · exact absurd ha hmis

theorem width_bytes_le (w : Width) : w.bytes ≤ 2 ^ 32 := by
  cases w <;> decide

/-- The bytes put are those of the value in the byte order of the state, and every address outside them reads as before. -/
theorem bytesStored_putBytes {s t : State} {w : Width} {a x : Word}
    (hm : t.mem = putBytes s.mem a (storedByte s.byteOrder w (x.setWidth w.bits)) w.bytes) :
    BytesStored s t w.bytes a x := by
  simp only [BytesStored, byteAt, hm]
  refine ⟨fun k hk => ?_, fun b hb => memByte_putBytes_other fun k hk hbk => hb ⟨k, hk, hbk⟩⟩
  rw [memByte_putBytes_same (width_bytes_le w) hk, storedByte_eq _ _ _ _ hk]

theorem storeOutcome_of_storeFrom {i : Instr} {w : Width} {rs2 rs1 : Reg} {imm : Imm12} {s : State}
    (he : exec i s = storeFrom w rs2 rs1 imm s) : StoreOutcome i w.bytes rs2 rs1 imm s := by
  rcases storeFrom_outcomes w rs2 rs1 imm s with ⟨hmis, -⟩ | ⟨-, hnot, h⟩ | ⟨-, hall, h⟩
  · exact ⟨fun ha => absurd ha hmis, fun ha => absurd ha hmis⟩
  · exact ⟨fun _ _ => raises_of_exec (he.trans h), fun _ hall => absurd hall hnot⟩
  · exact ⟨fun _ hnot => absurd hall hnot, fun _ _ =>
      ⟨_, he.trans h, bytesStored_putBytes rfl, fun _ => rfl, rfl, rfl, rfl, rfl, rfl⟩⟩

/-! ### The statements -/

open Sys2Proof.Laws

/-- Settles O43: the word read is the number its four bytes make, so it goes to rd as it is. -/
theorem lwLoadsWord : Obligations.LwLoadsWord := fun _ _ _ _ =>
  ⟨hasRow_of_encodesRow rfl (EncodesRow.lw ..), decode_encode (.lw ..),
    misalignedRaises_of_loadInto (w := .word) rfl,
    loadOutcome_of_loadInto (w := .word) (value := BitVec.ofNat 32) rfl fun x =>
      ((BitVec.ofNat_toNat 32 x).trans (BitVec.setWidth_eq x)).symm⟩

/-- Settles O44: sign extension keeps the signed value of the halfword read, zero extension its unsigned value. -/
theorem lhAndLhuLoadHalfword : Obligations.LhAndLhuLoadHalfword := fun _ _ _ _ =>
  ⟨hasRow_of_encodesRow rfl (EncodesRow.lh ..), decode_encode (.lh ..),
    hasRow_of_encodesRow rfl (EncodesRow.lhu ..), decode_encode (.lhu ..),
    misalignedRaises_of_loadInto (w := .half) rfl, misalignedRaises_of_loadInto (w := .half) rfl,
    loadOutcome_of_loadInto (w := .half) (value := fun n => BitVec.ofInt 32 (signedNat 16 n)) rfl signExtend16_eq,
    loadOutcome_of_loadInto (w := .half) (value := BitVec.ofNat 32) rfl fun x =>
      (BitVec.ofNat_toNat 32 x).symm⟩

/-- Settles O45: as for the halfwords, the number read being the one byte at the address. -/
theorem lbAndLbuLoadByte : Obligations.LbAndLbuLoadByte := by
  intro rd rs1 imm s
  rw [← accessNat_one]
  exact ⟨hasRow_of_encodesRow rfl (EncodesRow.lb ..), decode_encode (.lb ..),
    hasRow_of_encodesRow rfl (EncodesRow.lbu ..), decode_encode (.lbu ..),
    loadOutcome_of_loadInto (w := .byte) (value := fun n => BitVec.ofInt 32 (signedNat 8 n)) rfl signExtend8_eq,
    loadOutcome_of_loadInto (w := .byte) (value := BitVec.ofNat 32) rfl fun x =>
      (BitVec.ofNat_toNat 32 x).symm⟩

/-- Settles O46: SW is the store of width 4, and every byte of a store is the byte of x[rs2] at its place. -/
theorem swStoresWord : Obligations.SwStoresWord := fun _ _ _ _ =>
  ⟨hasRow_of_encodesRow rfl (EncodesRow.sw ..), decode_encode (.sw ..),
    misalignedRaises_of_storeFrom (w := .word) rfl, storeOutcome_of_storeFrom (w := .word) rfl⟩

/-- Settles O47: SH and SB are the stores of widths 2 and 1; of width 1 no address is misaligned. -/
theorem shAndSbStoreLowBytes : Obligations.ShAndSbStoreLowBytes := fun _ _ _ _ =>
  ⟨hasRow_of_encodesRow rfl (EncodesRow.sh ..), decode_encode (.sh ..),
    hasRow_of_encodesRow rfl (EncodesRow.sb ..), decode_encode (.sb ..),
    misalignedRaises_of_storeFrom (w := .half) rfl, storeOutcome_of_storeFrom (w := .half) rfl,
    storeOutcome_of_storeFrom (w := .byte) rfl⟩

end Sys2Proof.Machine
end

section
/-! Exceptions (60_exceptions.md R180): a step of a running state leaves a faulted state only by raising, because going on
keeps the run status and ending makes it `ended`; and raising changes the run status alone. -/

namespace Sys2Proof.Machine

/-- An instruction that goes on leaves the run status as it was: only raising and ending change it (10_state.md R34). -/
theorem GoesOn.status_eq {i : Instr} {s t : State} (h : GoesOn i s t) : t.status = s.status := by
  cases h with
  | wrote rd v => rw [advance_status, writeReg_status]
  | passed => rw [advance_status]
  | linked rd t => rw [goTo_status, writeReg_status]
  | branched t => rw [goTo_status]
  | stored w v rs1 imm => rw [advance_status]

/-- A step from running to faulted is a raise: what it answers is the old state with the new run status. -/
theorem step_running_faulted {s t : State} {e : Cause} {info : Word} (hs : s.status = .running) (h : step s = .next t)
    (ht : t.status = .faulted e info) : t = { s with status := .faulted e info } := by
  rcases step_cases h with ⟨hended, -⟩ | ⟨-, -, rfl⟩ | ⟨-, -, i, -, -, hg⟩ | ⟨-, -, raised, rfl⟩
  · cases hs.symm.trans hended
  · cases (endRun_status s).symm.trans ht
  · cases hs.symm.trans (hg.status_eq.symm.trans ht)
  · exact congrArg (fun r => { s with status := r }) ht

/-- Settles O48: the step is a raise, so only the run status differs, and from a faulted state `step` answers a fault. -/
theorem raiseIsPreciseAndFinal : Obligations.RaiseIsPreciseAndFinal := by
  intro s t e info hs h ht
  obtain rfl := step_running_faulted hs h ht
  have hraised : RaisedIn s { s with status := .faulted e info } e info := by
    obtain ⟨u, hu, hr⟩ := raise_raisedIn ⟨e, info⟩ s
    exact raise_next hu ▸ hr
  have hfinal : ∀ u, step { s with status := .faulted e info } ≠ .next u := by
    intro u hu
    cases (step_faulted ht).symm.trans hu
  exact ⟨hraised, rfl, rfl, hfinal⟩

end Sys2Proof.Machine
end

section
/-! The encoder and the decoder are inverse, and both agree with the opcode table (30_encoding.md R71 to R74, R84). A word
is made of the fields its format reads, so an accepted word is the one the encoder writes from those fields; and a word
that has the fixed bits of a row is the word of an instruction with that row. -/

namespace Sys2Proof

/-! ### A word from its opcode and function fields -/

theorem packR_of_fields {w : Word} {f7 : BitVec 7} {f3 : BitVec 3} {op : BitVec 7} (ho : opcodeOf w = op)
    (h3 : funct3Of w = f3) (h7 : funct7Of w = f7) : packR f7 (rs2Of w) (rs1Of w) f3 (rdOf w) op = w := by
  subst ho h3 h7; exact packR_fields w

theorem packI_of_fields {w : Word} {f3 : BitVec 3} {op : BitVec 7} (ho : opcodeOf w = op) (h3 : funct3Of w = f3) :
    packI (imm12Of w) (rs1Of w) f3 (rdOf w) op = w := by
  subst ho h3; exact packI_fields w

theorem packS_of_fields {w : Word} {f3 : BitVec 3} {op : BitVec 7} (ho : opcodeOf w = op) (h3 : funct3OfS w = f3) :
    packS (imm12Of w) (rs2OfS w) (rs1OfS w) f3 op = w := by
  subst ho h3; exact packS_fields w

theorem packU_of_fields {w : Word} {op : BitVec 7} (ho : opcodeOf w = op) : packU (imm20Of w) (rdOf w) op = w := by
  subst ho; exact packU_fields w

/-! ### What each part of the decoder accepts is what the encoder writes -/

theorem encode_of_decodeLoad {w : Word} {i : Instr} (ho : opcodeOf w = opLoad) (h : decodeLoad w = .ok i) :
    encode i = w := by
  unfold decodeLoad at h
  split_ifs at h with h3 h3 h3 h3 h3 <;> cases h <;> exact packI_of_fields ho h3

theorem encode_of_decodeStore {w : Word} {i : Instr} (ho : opcodeOf w = opStore) (h : decodeStore w = .ok i) :
    encode i = w := by
  unfold decodeStore at h
  split_ifs at h with h3 h3 h3 <;> cases h <;> exact packS_of_fields ho h3

theorem encode_of_decodeBranch {w : Word} {i : Instr} (ho : opcodeOf w = opBranch) (h : decodeBranch w = .ok i) :
    encode i = w := by
  unfold decodeBranch at h
  split_ifs at h with h3 h3 h3 h3 h3 h3 <;> cases h <;> exact packS_of_fields ho h3

/-- The funct3 that OP-IMM leaves to its last arm, which does not ask for it. -/
theorem funct3_eq_five {f : BitVec 3} (h0 : f ≠ 0b000) (h2 : f ≠ 0b010) (h3 : f ≠ 0b011) (h4 : f ≠ 0b100) (h6 : f ≠ 0b110)
    (h7 : f ≠ 0b111) (h1 : f ≠ 0b001) : f = 0b101 := by
  bv_omega

/-- The funct3 that OP leaves to its last arm with funct7 0000000. -/
theorem funct3_eq_seven {f : BitVec 3} (h0 : f ≠ 0b000) (h1 : f ≠ 0b001) (h2 : f ≠ 0b010) (h3 : f ≠ 0b011)
    (h4 : f ≠ 0b100) (h5 : f ≠ 0b101) (h6 : f ≠ 0b110) : f = 0b111 := by
  bv_omega

theorem encode_of_decodeOpImm {w : Word} {i : Instr} (ho : opcodeOf w = opOpImm) (h : decodeOpImm w = .ok i) :
    encode i = w := by
  unfold decodeOpImm at h
  split_ifs at h with h0 h2 h3 h4 h6 h7 h1 h1u hlog har <;> cases h
  · exact packI_of_fields ho h0
  · exact packI_of_fields ho h2
  · exact packI_of_fields ho h3
  · exact packI_of_fields ho h4
  · exact packI_of_fields ho h6
  · exact packI_of_fields ho h7
  · exact packR_of_fields ho h1 h1u
  · exact packR_of_fields ho (funct3_eq_five h0 h2 h3 h4 h6 h7 h1) hlog
  · exact packR_of_fields ho (funct3_eq_five h0 h2 h3 h4 h6 h7 h1) har

theorem encode_of_decodeOp {w : Word} {i : Instr} (ho : opcodeOf w = opOp) (h : decodeOp w = .ok i) :
    encode i = w := by
  unfold decodeOp at h
  split_ifs at h with hlow h0 h1 h2 h3 h4 h5 h6 hhigh h0 h5 <;> cases h
  · exact packR_of_fields ho h0 hlow
  · exact packR_of_fields ho h1 hlow
  · exact packR_of_fields ho h2 hlow
  · exact packR_of_fields ho h3 hlow
  · exact packR_of_fields ho h4 hlow
  · exact packR_of_fields ho h5 hlow
  · exact packR_of_fields ho h6 hlow
  · exact packR_of_fields ho (funct3_eq_seven h0 h1 h2 h3 h4 h5 h6) hlow
  · exact packR_of_fields ho h0 hhigh
  · exact packR_of_fields ho h5 hhigh

/-- Settles O2: the opcode says which part of the decoder accepts the word, and each part reads fields that make up the
word. -/
theorem encodeOfDecoded : Obligations.EncodeOfDecoded := by
  intro w i h
  unfold decode at h
  split_ifs at h with lui auipc jal jalr jalr0 branch load store opImm op
  · cases h; exact packU_of_fields lui
  · cases h; exact packU_of_fields auipc
  · cases h; exact packU_of_fields jal
  · cases h; exact packI_of_fields jalr jalr0
  · exact encode_of_decodeBranch branch h
  · exact encode_of_decodeLoad load h
  · exact encode_of_decodeStore store h
  · exact encode_of_decodeOpImm opImm h
  · exact encode_of_decodeOp op h

/-! ### Bytes -/

theorem decodeBytes_bytesOfWord (o : ByteOrder) (w : Word) (rest : List Byte) :
    decodeBytes o (bytesOfWord o w ++ rest) = (decode w).map (·, rest) := by
  simp only [decodeBytes, bytesOfWord, List.cons_append, List.nil_append, wordOfBytes_byteOfWord]
  cases decode w <;> rfl

/-- Settles O1: the four bytes make the word again, and the word decodes to the instruction it was written from. -/
theorem decodeOfEncodedBytes : Obligations.DecodeOfEncodedBytes := by
  intro o i rest
  rw [decodeBytes_bytesOfWord, decode_encode]
  rfl

/-! ### The opcode table -/

open Sys2Proof.Laws

/-- The word the encoder writes has the fixed bits of its instruction's row. -/
theorem encode_fixed (i : Instr) : encode i &&& i.tableRow.mask = i.tableRow.bits := by
  cases i
  case lui | auipc | jal => exact (packU_fixed ..).trans rfl
  case beq | bne | blt | bltu | bge | bgeu | sw | sh | sb => exact (packS_fixed ..).trans rfl
  case addi | slti | sltiu | andi | ori | xori | jalr | lw | lh | lhu | lb | lbu => exact (packI_fixed ..).trans rfl
  all_goals exact (packR_fixed ..).trans rfl

theorem tableRow_mem (i : Instr) : i.tableRow ∈ opcodeTable := by
  cases i <;> exact of_decide_eq_true rfl

theorem exists_tableRow_eq {r : TableRow} (h : r ∈ opcodeTable) : ∃ i : Instr, i.tableRow = r := by
  simp only [opcodeTable, List.mem_append, List.mem_map] at h
  rcases h with ((⟨i, -, hi⟩ | ⟨i, -, hi⟩) | ⟨i, -, hi⟩) | ⟨i, -, hi⟩ <;> exact ⟨i, hi⟩

/-! The fixed bits of a row give the opcode and the function fields of its format. -/

theorem packR_of_fixed {w : Word} {f7 : BitVec 7} {f3 : BitVec 3} {op : BitVec 7}
    (h : w &&& 0xFE00707F#32 = packR f7 0#5 0#5 f3 0#5 op) : packR f7 (rs2Of w) (rs1Of w) f3 (rdOf w) op = w := by
  have fixed : packR (funct7Of w) 0#5 0#5 (funct3Of w) 0#5 (opcodeOf w) = packR f7 0#5 0#5 f3 0#5 op := by
    rw [← h, ← packR_fixed, packR_fields]
  exact packR_of_fields (by simpa using congrArg opcodeOf fixed) (by simpa using congrArg funct3Of fixed)
    (by simpa using congrArg funct7Of fixed)

theorem packI_of_fixed {w : Word} {f3 : BitVec 3} {op : BitVec 7} (h : w &&& 0x0000707F#32 = packI 0#12 0#5 f3 0#5 op) :
    packI (imm12Of w) (rs1Of w) f3 (rdOf w) op = w := by
  have fixed : packI 0#12 0#5 (funct3Of w) 0#5 (opcodeOf w) = packI 0#12 0#5 f3 0#5 op := by
    rw [← h, ← packI_fixed, packI_fields]
  exact packI_of_fields (by simpa using congrArg opcodeOf fixed) (by simpa using congrArg funct3Of fixed)

theorem packS_of_fixed {w : Word} {f3 : BitVec 3} {op : BitVec 7} (h : w &&& 0x000003FF#32 = packS 0#12 0#5 0#5 f3 op) :
    packS (imm12Of w) (rs2OfS w) (rs1OfS w) f3 op = w := by
  have fixed : packS 0#12 0#5 0#5 (funct3OfS w) (opcodeOf w) = packS 0#12 0#5 0#5 f3 op := by
    rw [← h, ← packS_fixed, packS_fields]
  exact packS_of_fields (by simpa using congrArg opcodeOf fixed) (by simpa using congrArg funct3OfS fixed)

theorem packU_of_fixed {w : Word} {op : BitVec 7} (h : w &&& 0x0000007F#32 = packU 0#20 0#5 op) :
    packU (imm20Of w) (rdOf w) op = w := by
  have fixed : packU 0#20 0#5 (opcodeOf w) = packU 0#20 0#5 op := by
    rw [← h, ← packU_fixed, packU_fields]
  exact packU_of_fields (by simpa using congrArg opcodeOf fixed)

/-- A word with the fixed bits of an instruction's row is the word of an instruction with that row: the one whose operands
are the fields of the word. -/
theorem exists_encode_eq_of_row {w : Word} {i : Instr} (h : w &&& i.tableRow.mask = i.tableRow.bits) :
    ∃ j, encode j = w ∧ j.tableRow = i.tableRow := by
  cases i with
  | addi => exact ⟨.addi .., packI_of_fixed h, rfl⟩
  | slti => exact ⟨.slti .., packI_of_fixed h, rfl⟩
  | sltiu => exact ⟨.sltiu .., packI_of_fixed h, rfl⟩
  | andi => exact ⟨.andi .., packI_of_fixed h, rfl⟩
  | ori => exact ⟨.ori .., packI_of_fixed h, rfl⟩
  | xori => exact ⟨.xori .., packI_of_fixed h, rfl⟩
  | slli => exact ⟨.slli .., packR_of_fixed h, rfl⟩
  | srli => exact ⟨.srli .., packR_of_fixed h, rfl⟩
  | srai => exact ⟨.srai .., packR_of_fixed h, rfl⟩
  | lui => exact ⟨.lui .., packU_of_fixed h, rfl⟩
  | auipc => exact ⟨.auipc .., packU_of_fixed h, rfl⟩
  | add => exact ⟨.add .., packR_of_fixed h, rfl⟩
  | slt => exact ⟨.slt .., packR_of_fixed h, rfl⟩
  | sltu => exact ⟨.sltu .., packR_of_fixed h, rfl⟩
  | and => exact ⟨.and .., packR_of_fixed h, rfl⟩
  | or => exact ⟨.or .., packR_of_fixed h, rfl⟩
  | xor => exact ⟨.xor .., packR_of_fixed h, rfl⟩
  | sll => exact ⟨.sll .., packR_of_fixed h, rfl⟩
  | srl => exact ⟨.srl .., packR_of_fixed h, rfl⟩
  | sub => exact ⟨.sub .., packR_of_fixed h, rfl⟩
  | sra => exact ⟨.sra .., packR_of_fixed h, rfl⟩
  | jal => exact ⟨.jal .., packU_of_fixed h, rfl⟩
  | jalr => exact ⟨.jalr .., packI_of_fixed h, rfl⟩
  | beq => exact ⟨.beq .., packS_of_fixed h, rfl⟩
  | bne => exact ⟨.bne .., packS_of_fixed h, rfl⟩
  | blt => exact ⟨.blt .., packS_of_fixed h, rfl⟩
  | bltu => exact ⟨.bltu .., packS_of_fixed h, rfl⟩
  | bge => exact ⟨.bge .., packS_of_fixed h, rfl⟩
  | bgeu => exact ⟨.bgeu .., packS_of_fixed h, rfl⟩
  | lw => exact ⟨.lw .., packI_of_fixed h, rfl⟩
  | lh => exact ⟨.lh .., packI_of_fixed h, rfl⟩
  | lhu => exact ⟨.lhu .., packI_of_fixed h, rfl⟩
  | lb => exact ⟨.lb .., packI_of_fixed h, rfl⟩
  | lbu => exact ⟨.lbu .., packI_of_fixed h, rfl⟩
  | sw => exact ⟨.sw .., packS_of_fixed h, rfl⟩
  | sh => exact ⟨.sh .., packS_of_fixed h, rfl⟩
  | sb => exact ⟨.sb .., packS_of_fixed h, rfl⟩

/-- A word that a row matches decodes to an instruction with that row. -/
theorem decode_of_row {w : Word} {r : TableRow} (hr : r ∈ opcodeTable) (h : w &&& r.mask = r.bits) :
    ∃ i, decode w = .ok i ∧ i.tableRow = r := by
  obtain ⟨i, rfl⟩ := exists_tableRow_eq hr
  obtain ⟨j, rfl, hj⟩ := exists_encode_eq_of_row h
  exact ⟨j, decode_encode j, hj⟩

/-- Settles O3: an accepted word is the encoding of what it reads, which has the fixed bits of its row; a word with the
fixed bits of a row is the encoding of an instruction with that row, which the decoder reads back. -/
theorem decoderMatchesTable : Obligations.DecoderMatchesTable := by
  refine fun w => ⟨fun i h => ⟨tableRow_mem i, ?_⟩, fun r hr h => decode_of_row hr h⟩
  obtain rfl := encodeOfDecoded w i h
  exact encode_fixed i

/-- Two rows that a word matches are both the row of the one instruction it decodes to. -/
theorem tableRow_unique {w : Word} {r r' : TableRow} (hr : r ∈ opcodeTable) (hr' : r' ∈ opcodeTable)
    (h : r.holds w = true) (h' : r'.holds w = true) : r = r' := by
  obtain ⟨i, hi, rfl⟩ := decode_of_row hr (beq_iff_eq.1 h)
  obtain ⟨j, hj, rfl⟩ := decode_of_row hr' (beq_iff_eq.1 h')
  cases hi.symm.trans hj
  rfl

theorem opcodeTable_nodup : opcodeTable.Nodup := by decide

/-- Settles O4: the rows a word matches are all one row, and no row is listed twice. -/
theorem tableRowsDisjoint : Obligations.TableRowsDisjoint := by
  refine ⟨rfl, fun w => ?_⟩
  rw [← List.toFinset_card_of_nodup (opcodeTable_nodup.filter _), Finset.card_le_one]
  intro r hr r' hr'
  obtain ⟨hmem, hholds⟩ := List.mem_filter.1 (List.mem_toFinset.1 hr)
  obtain ⟨hmem', hholds'⟩ := List.mem_filter.1 (List.mem_toFinset.1 hr')
  exact tableRow_unique hmem hmem' hholds hholds'

/-- Settles O6: the decoder evaluated on each of the five words. -/
theorem writtenWordsDecode : Obligations.WrittenWordsDecode := by
  unfold Obligations.WrittenWordsDecode
  decide

end Sys2Proof

namespace Sys2Proof.Machine

/-- Settles O7: sign extension keeps the value of a field, doubling it stays inside 32 bits, and the other two forms are
read off the bits. -/
theorem operandForms : Obligations.OperandForms := by
  refine ⟨fun imm => ⟨immOperand_toInt imm, imm12_range imm⟩, fun imm => ⟨branchOffset_toInt imm, ?_⟩,
    fun imm => ⟨jalOffset_toInt imm, ?_⟩, concat12_toNat, shiftByRegister_eq_mod⟩
  · have range := imm12_range imm
    omega
  · have range := imm20_range imm
    omega

end Sys2Proof.Machine
end

section
/-! What every step keeps. An instruction that goes on does so in one of the five ways of `GoesOn`; each fact is proved once
for those ways and carried to a step by `step_cases`, because ending and raising change the run status alone. -/

namespace Sys2Proof.Machine

/-! ### What an instruction that goes on leaves unchanged -/

theorem GoesOn.sameParameters {i : Instr} {s t : State} (h : GoesOn i s t) : SameParameters s t := by
  cases h <;> simp [SameParameters]

theorem GoesOn.pcAligned {i : Instr} {s t : State} (h : GoesOn i s t) (hs : PcAligned s) : PcAligned t := by
  have next_aligned : (s.pc + 4).toNat % 4 = 0 := by
    unfold PcAligned at hs
    bv_omega
  cases h with
  | wrote rd v => simpa [PcAligned] using next_aligned
  | passed => exact next_aligned
  | linked rd t hd ha ht => exact ht
  | branched t hd ha ht => exact ht
  | stored w v rs1 imm => exact next_aligned

theorem GoesOn.mem_wf {i : Instr} {s t : State} (h : GoesOn i s t) (hs : Memory.wf s.mem = true) :
    Memory.wf t.mem = true := by
  cases h with
  | wrote rd v => simpa using hs
  | passed => exact hs
  | linked rd t => simpa using hs
  | branched t => exact hs
  | stored w v rs1 imm => exact putBytes_wf _ _ _ hs

theorem readReg_writeReg_other {q r : Reg} (h : q ≠ r) (s : State) (v : Word) :
    readReg (writeReg s q v) r = readReg s r := by
  rw [readReg_writeReg, if_neg h.symm]
  split
  case isTrue hr => rw [hr, readReg_zero]
  case isFalse => rfl

/-- The one register an instruction can write is its rd (10_state.md R24). -/
theorem GoesOn.readReg_eq {i : Instr} {s t : State} (h : GoesOn i s t) {r : Reg} (hr : i.dest ≠ some r) :
    readReg t r = readReg s r := by
  cases h with
  | wrote rd v hd => rw [readReg_advance, readReg_writeReg_other fun e : rd = r => hr (e ▸ hd)]
  | passed => rfl
  | linked rd t hd => rw [readReg_goTo, readReg_writeReg_other fun e : rd = r => hr (e ▸ hd)]
  | branched t => rfl
  | stored w v rs1 imm => rfl

/-- The bytes an instruction can change are those of its store, each of them writable (20_memory.md R42, R52). -/
theorem GoesOn.store_of_byteAt_ne {i : Instr} {s t : State} (h : GoesOn i s t) {a : Word} (hne : byteAt t a ≠ byteAt s a) :
    ∃ w rs1 imm, i.access = some (true, w, rs1, imm) ∧ Touches w.bytes (effectiveAddress s rs1 imm) a ∧
      writable s.map a = true := by
  cases h with
  | wrote rd v => simp at hne
  | passed => exact absurd rfl hne
  | linked rd t => simp at hne
  | branched t => exact absurd rfl hne
  | stored w v rs1 imm hd ha hw =>
    by_cases touched : Touches w.bytes (effectiveAddress s rs1 imm) a
    · obtain ⟨k, hk, rfl⟩ := touched
      exact ⟨w, rs1, imm, ha, ⟨k, hk, rfl⟩, hw k hk⟩
    · exact absurd (memByte_putBytes_other fun k hk hak => touched ⟨k, hk, hak⟩) hne

/-! ### The statements about registers, pc and parameters -/

/-- An instruction that answers a next state has gone on or raised. -/
theorem exec_next_cases {i : Instr} {s t : State} (h : exec i s = .next t) :
    GoesOn i s t ∨ ∃ e : Raised, t = { s with status := .faulted e.cause e.info } := by
  rcases exec_cases i s with ⟨u, hu, goes⟩ | ⟨e, he⟩
  · cases hu.symm.trans h
    exact .inl goes
  · exact .inr ⟨e, raise_next (he.symm.trans h)⟩

/-- Settles O10: going on writes at most rd, and raising writes no register. -/
theorem onlyRdIsWritten : Obligations.OnlyRdIsWritten := by
  intro i s t r h hr
  rcases exec_next_cases h with goes | ⟨e, rfl⟩
  · exact goes.readReg_eq hr
  · rfl

/-- Settles O16: pc goes on by 4 or to a target that was checked, and stays where it is otherwise. -/
theorem pcStaysAligned : Obligations.PcStaysAligned := by
  intro s t hs h
  rcases step_cases h with ⟨-, rfl⟩ | ⟨-, -, rfl⟩ | ⟨-, -, i, -, -, goes⟩ | ⟨-, -, e, rfl⟩
  · exact hs
  · exact hs
  · exact goes.pcAligned hs
  · exact hs

/-- Settles O24: no way of going on, ending or raising has a launch parameter among what it changes. -/
theorem parametersAreFixed : Obligations.ParametersAreFixed := by
  intro s t h
  rcases step_cases h with ⟨-, rfl⟩ | ⟨-, -, rfl⟩ | ⟨-, -, i, -, -, goes⟩ | ⟨-, -, e, rfl⟩
  · exact ⟨rfl, rfl, rfl⟩
  · exact ⟨rfl, rfl, rfl⟩
  · exact goes.sameParameters
  · exact ⟨rfl, rfl, rfl⟩

/-! ### The statements about memory -/

theorem step_mem_wf {s t : State} (hs : Memory.wf s.mem = true) (h : step s = .next t) : Memory.wf t.mem = true := by
  rcases step_cases h with ⟨-, rfl⟩ | ⟨-, -, rfl⟩ | ⟨-, -, i, -, -, goes⟩ | ⟨-, -, e, rfl⟩
  · exact hs
  · exact hs
  · exact goes.mem_wf hs
  · exact hs

theorem step_map {s t : State} (h : step s = .next t) : t.map = s.map := by
  obtain ⟨-, hmap, -⟩ := parametersAreFixed s t h
  exact hmap

/-- Settles O17: each part of the invariant is kept by every step, the map because it is a launch parameter. -/
theorem stepKeepsInvariant : Obligations.StepKeepsInvariant := fun s t inv h =>
  { mem := step_mem_wf inv.mem h
    map := (step_map h).symm ▸ inv.map
    pc := pcStaysAligned s t inv.pc h }

/-- Settles O22: a byte that reads differently was changed by an instruction that went on, so by its store. -/
theorem onlyStoresChangeMemory : Obligations.OnlyStoresChangeMemory := by
  intro s t a h hne
  rcases step_cases h with ⟨-, rfl⟩ | ⟨-, -, rfl⟩ | ⟨-, -, i, hf, -, goes⟩ | ⟨-, -, e, rfl⟩
  · exact absurd rfl hne
  · exact absurd rfl hne
  · obtain ⟨w, rs1, imm, hstore⟩ := goes.store_of_byteAt_ne hne
    exact ⟨i, w, rs1, imm, hf, hstore⟩
  · exact absurd rfl hne

/-- A step changes no byte that is not writable. -/
theorem step_byteAt_of_not_writable {s t : State} {a : Word} (h : step s = .next t) (ha : writable s.map a ≠ true) :
    byteAt t a = byteAt s a := by
  by_contra hne
  obtain ⟨-, -, -, -, -, -, -, hwritable⟩ := onlyStoresChangeMemory s t a h hne
  exact ha hwritable

/-- Settles O54: an executable byte is not writable, so no step changes it. -/
theorem stepKeepsProgram : Obligations.StepKeepsProgram := by
  intro p s t holds h
  refine ⟨holds.admitted, (step_map h).trans holds.map, fun a hx => ?_⟩
  have not_writable : writable s.map a ≠ true := fun hw => holds.admitted a ⟨holds.map ▸ hw, hx⟩
  rw [step_byteAt_of_not_writable h not_writable]
  exact holds.program a hx

/-! ### Running, ending and being faulted -/

/-- Settles O13: ending changes the run status alone. -/
theorem runEndsAtHaltPc : Obligations.RunEndsAtHaltPc := fun s hr hp =>
  ⟨endRun s, step_atHalt hr hp, rfl, rfl, fun _ => rfl, fun _ => rfl, rfl, rfl, rfl⟩

/-- Settles O14: an ended state steps to itself, and a faulted one has no step. -/
theorem endedAndFaultedAbsorb : Obligations.EndedAndFaultedAbsorb := by
  refine fun s => ⟨fun hs n => ?_, fun e info hs n t h => ?_⟩
  · induction n with
    | zero => exact reaches_zero.2 rfl
    | succ n ih => exact reaches_succ.2 ⟨s, step_ended hs, ih⟩
  · cases n with
    | zero => exact ⟨rfl, reaches_zero.1 h⟩
    | succ n =>
      obtain ⟨u, hu, -⟩ := reaches_succ.1 h
      cases (step_faulted hs).symm.trans hu

/-- Every instruction answers a next state, with the run status it had or faulted. -/
theorem exec_answers_next (i : Instr) (s : State) : ∃ t, exec i s = .next t ∧ (t.status = s.status ∨ Faulted t) := by
  rcases exec_cases i s with ⟨t, ht, goes⟩ | ⟨e, he⟩
  · exact ⟨t, ht, .inl goes.status_eq⟩
  · exact ⟨_, he, .inr ⟨e.cause, e.info, rfl⟩⟩

/-- Settles O15: at `HALT_PC` the run ends; elsewhere the fetch raises or an instruction runs, and each answers a next
state. -/
theorem everyRunningStateSteps : Obligations.EveryRunningStateSteps := by
  intro s hr
  by_cases hp : s.pc = s.haltPc
  · exact ⟨endRun s, step_atHalt hr hp, .inr (.inl ⟨rfl, hp⟩)⟩
  · cases hf : fetchInstr s with
    | error e => exact ⟨_, step_of_fetch_error hr hp hf, .inr (.inr ⟨e.cause, e.info, rfl⟩)⟩
    | ok i =>
      rw [step_of_fetch_ok hr hp hf]
      obtain ⟨t, ht, hstatus | hfaulted⟩ := exec_answers_next i s
      · exact ⟨t, ht, .inl (hstatus.trans hr)⟩
      · exact ⟨t, ht, .inr (.inr hfaulted)⟩

end Sys2Proof.Machine
end

section
/-! What is stored is what is read (20_memory.md R43 to R45, R59, R60): the bytes a store lays down make its value again in
the same byte order, and any narrower access reads the part of the value that lies at its place. -/

namespace Sys2Proof.Machine

/-! ### The bytes of a stored value -/

/-- An access of width `w` is made of its first `w.bytes` bytes. -/
theorem assemble_congr {o : ByteOrder} {b c : Nat → Byte} {w : Width} (h : ∀ k, k < w.bytes → b k = c k) :
    assemble o b w = assemble o c w := by
  cases w with
  | byte => exact h 0 (by decide)
  | half => simp only [assemble, h 0 (by decide), h 1 (by decide)]
  | word => simp only [assemble, h 0 (by decide), h 1 (by decide), h 2 (by decide), h 3 (by decide)]

/-- A halfword is made of its bytes. -/
theorem halves_append (v : BitVec 16) : v.extractLsb' 8 8 ++ v.extractLsb' 0 8 = v := by
  apply BitVec.eq_of_toNat_eq
  have := v.isLt
  rw [concat8_toNat, BitVec.extractLsb'_toNat, BitVec.extractLsb'_toNat, Nat.shiftRight_eq_div_pow]
  omega

/-- A value is made of the bytes that a store puts in memory, in either byte order. -/
theorem assemble_storedByte (o : ByteOrder) (w : Width) (v : BitVec w.bits) : assemble o (storedByte o w v) w = v := by
  cases w with
  | byte => cases o <;> exact BitVec.extractLsb'_eq_self
  | half => cases o <;> exact halves_append v
  | word =>
    refine Eq.trans ?_ (wordOfBytes_byteOfWord o v)
    cases o <;> rfl

/-- What an access reads where a value of its width was put is that value. -/
theorem assemble_of_putBytes {t : State} {m : Memory} {o : ByteOrder} {w : Width} {a : Word} {v : BitVec w.bits}
    (hm : t.mem = putBytes m a (storedByte o w v) w.bytes) :
    assemble o (fun k => byteAt t (addrPlus a k)) w = v := by
  refine (assemble_congr fun k hk => ?_).trans (assemble_storedByte o w v)
  rw [byteAt, hm, memByte_putBytes_same (width_bytes_le w) hk]

/-! ### A load after a store of the same width -/

theorem loadInto_of_readable {w : Width} {rs1 : Reg} {imm : Imm12} {s : State}
    (ha : (effectiveAddress s rs1 imm).toNat % w.bytes = 0)
    (hr : EveryByte w.bytes (effectiveAddress s rs1 imm) (readable s.map)) (extend : BitVec w.bits → Word) (rd : Reg) :
    loadInto w extend rd rs1 imm s = writeAndAdvance rd
      (extend (assemble s.byteOrder (fun k => byteAt s (addrPlus (effectiveAddress s rs1 imm) k)) w)) s := by
  rcases loadInto_outcomes w extend rd rs1 imm s with ⟨hmis, -⟩ | ⟨-, hnot, -⟩ | ⟨-, -, h⟩
  · exact absurd ha hmis
  · exact absurd hr hnot
  · exact h

theorem storeFrom_of_writable {w : Width} {rs1 : Reg} {imm : Imm12} {s : State}
    (ha : (effectiveAddress s rs1 imm).toNat % w.bytes = 0)
    (hw : EveryByte w.bytes (effectiveAddress s rs1 imm) (writable s.map)) (rs2 : Reg) :
    storeFrom w rs2 rs1 imm s = .next (advance { s with
      mem := putBytes s.mem (effectiveAddress s rs1 imm)
        (storedByte s.byteOrder w ((readReg s rs2).setWidth w.bits)) w.bytes }) := by
  rcases storeFrom_outcomes w rs2 rs1 imm s with ⟨hmis, -⟩ | ⟨-, hnot, -⟩ | ⟨-, -, h⟩
  · exact absurd ha hmis
  · exact absurd hw hnot
  · exact h

/-- A store leaves registers and map as they are, so the load after it has the same address and passes the same check. -/
theorem load_after_store {i j : Instr} {w : Width} {extend : BitVec w.bits → Word} {rd rs2 rs1 : Reg} {imm : Imm12}
    {s : State} {v : Word} (hi : exec i s = storeFrom w rs2 rs1 imm s)
    (hj : ∀ t, exec j t = loadInto w extend rd rs1 imm t) (ha : (effectiveAddress s rs1 imm).toNat % w.bytes = 0)
    (hw : EveryByte w.bytes (effectiveAddress s rs1 imm) (writable s.map))
    (hr : EveryByte w.bytes (effectiveAddress s rs1 imm) (readable s.map))
    (hv : extend ((readReg s rs2).setWidth w.bits) = v) :
    ∃ t, exec i s = .next t ∧ Computes j t rd v := by
  refine ⟨_, hi.trans (storeFrom_of_writable ha hw rs2), computes_of_exec (v := extend _) ((hj _).trans ?_) hv⟩
  refine (loadInto_of_readable ?_ ?_ extend rd).trans (congrArg (fun x => writeAndAdvance rd (extend x) _) ?_)
  · exact ha
  · exact hr
  · exact assemble_of_putBytes rfl

/-- The low bits of a word, zero-extended, are its value modulo the power of 2. -/
theorem zero_extend_low (x : Word) (n : Nat) : (x.setWidth n).setWidth 32 = BitVec.ofNat 32 (x.toNat % 2 ^ n) := by
  apply BitVec.eq_of_toNat_eq
  simp

/-- Settles O27: the load gives what its extension makes of the low bits of x[rs2], and those are zero-extended. -/
theorem storeThenLoad : Obligations.StoreThenLoad := fun _ _ _ _ _ =>
  ⟨fun ha hw hr => load_after_store (w := .word) rfl (fun _ => rfl) ha hw hr (BitVec.setWidth_eq _),
    fun ha hw hr => load_after_store (w := .half) rfl (fun _ => rfl) ha hw hr (zero_extend_low _ _),
    fun hw hr => load_after_store (w := .byte) rfl (fun _ => rfl) (Nat.mod_one _) hw hr
      (zero_extend_low _ _)⟩

/-! ### Narrower reads of a stored word -/

theorem memRead_of_readable {s : State} {a : Word} {w : Width} (ha : a.toNat % w.bytes = 0)
    (hr : EveryByte w.bytes a (readable s.map)) :
    memRead s a w = .ok (assemble s.byteOrder (fun k => byteAt s (addrPlus a k)) w) := by
  rcases memRead_cases s a w with ⟨hmis, -⟩ | ⟨-, hnot, -⟩ | ⟨-, -, h⟩
  · exact absurd ha hmis
  · exact absurd hr hnot
  · exact h

/-- A write that completes was aligned, laid down the bytes of the value, and left map and byte order as they were. -/
theorem memWrite_word_ok {s t : State} {a v : Word} (h : memWrite s a .word v = .ok t) :
    a.toNat % 4 = 0 ∧ BytesStored s t 4 a v ∧ SameParameters s t := by
  rcases memWrite_cases s a .word v with ⟨-, he⟩ | ⟨-, -, he⟩ | ⟨ha, -, hok⟩
  · cases h.symm.trans he
  · cases h.symm.trans he
  · cases h.symm.trans hok
    exact ⟨ha, bytesStored_putBytes (w := .word) (by rw [BitVec.setWidth_eq]), rfl, rfl, rfl⟩

/-- The bytes of an access inside another are among its bytes. -/
theorem EveryByte.sub {n : Nat} {a : Word} {ok : Word → Bool} (h : EveryByte n a ok) {i m : Nat} (him : i + m ≤ n) :
    EveryByte m (addrPlus a i) ok := fun k hk => by
  rw [addrPlus_addrPlus]
  exact h (i + k) (by omega)

/-- The two bytes of a halfword of a stored word make the 16 bits of the word at the halfword's place. -/
theorem accessNat_half_of_word {s t : State} {a v : Word} (ho : t.byteOrder = s.byteOrder) (h : BytesStored s t 4 a v)
    {j : Nat} (hj : j < 2) :
    accessNat t (addrPlus a (2 * j)) 2 = v.toNat / 65536 ^ unitPlace s.byteOrder 2 j % 65536 := by
  obtain ⟨bytes, -⟩ := h
  have low := bytes (2 * j + 0) (by omega)
  have high := bytes (2 * j + 1) (by omega)
  simp only [accessNat, ho, littleNat, bigNat, addrPlus_addrPlus, low, high, BitVec.toNat_ofNat]
  cases s.byteOrder <;> interval_cases j <;> simp only [unitPlace] <;> omega

/-- Settles O28: a byte is read as it was stored, and two bytes of the word make the halfword at their place. -/
theorem mixedWidthReads : Obligations.MixedWidthReads := by
  intro s t a v h hr
  obtain ⟨ha, stored, ho, hmap, -⟩ := memWrite_word_ok h
  rw [← hmap] at hr
  refine ⟨fun i hi => ?_, fun j hj => ?_⟩
  · obtain ⟨bytes, -⟩ := stored
    rw [memRead_of_readable (w := .byte) (Nat.mod_one _) (hr.sub hi), assemble, addrPlus_addrPlus, ← bytes i hi]
    rfl
  · have half_aligned : (addrPlus a (2 * j)).toNat % 2 = 0 := by rw [addrPlus_toNat]; omega
    rw [memRead_of_readable (w := .half) half_aligned (hr.sub (by rw [Width.bytes]; omega))]
    refine congrArg Except.ok (BitVec.eq_of_toNat_eq ?_)
    rw [assemble_toNat, BitVec.toNat_ofNat]
    exact accessNat_half_of_word ho stored hj

end Sys2Proof.Machine
end

section
/-! What a step fetches (10_state.md R36, 20_memory.md R61): the word that the four bytes at pc make, which the decoder reads
as it reads a list of bytes; and that a word placed at pc is fetched by the next step. -/

namespace Sys2Proof.Machine

/-! ### The word at pc -/

theorem decode_of_decodeBytes {o : ByteOrder} {b0 b1 b2 b3 : Byte} {rest rest' : List Byte} {i : Instr}
    (h : decodeBytes o (b0 :: b1 :: b2 :: b3 :: rest) = .ok (i, rest')) : decode (wordOfBytes o b0 b1 b2 b3) = .ok i := by
  unfold decodeBytes at h
  cases hd : decode (wordOfBytes o b0 b1 b2 b3) with
  | ok j => simp only [hd] at h; cases h; rfl
  | error e => simp only [hd] at h; cases h

/-- Settles O11: the fetched word is made of the bytes at pc, so it decodes to the instruction that they decode to. -/
theorem stepRunsDecoded : Obligations.StepRunsDecoded := fun _ _ hr hp ha hx hd =>
  step_of_fetch_ok hr hp (fetchInstr_decoded ha hx (decode_of_decodeBytes hd))

theorem assemble_word_eq (s : State) (a : Word) :
    assemble s.byteOrder (fun k => byteAt s (addrPlus a k)) .word = BitVec.ofNat 32 (accessNat s a 4) := by
  have value : (assemble s.byteOrder (fun k => byteAt s (addrPlus a k)) .word).toNat = accessNat s a 4 :=
    assemble_toNat s a .word
  rw [← value, BitVec.ofNat_toNat, BitVec.setWidth_eq]

/-- A step whose fetch or decoding raises changes the run status alone. -/
theorem step_raisedIn {s : State} {e : Raised} (hr : s.status = .running) (hp : s.pc ≠ s.haltPc)
    (hf : fetchInstr s = .error e) : ∃ t, step s = .next t ∧ RaisedIn s t e.cause e.info := by
  rw [step_of_fetch_error hr hp hf]
  exact raise_raisedIn e s

/-- Settles O12: alignment is asked before the map and the map before the decoder. -/
theorem fetchFaultsInOrder : Obligations.FetchFaultsInOrder := by
  refine fun s hr hp => ⟨fun ha => step_raisedIn hr hp (fetchInstr_misaligned ha),
    fun ha hx => step_raisedIn hr hp (fetchInstr_notExecutable ha hx), fun ha hx hw => ?_⟩
  rw [← assemble_word_eq] at hw ⊢
  obtain ⟨e, he⟩ := decode_error_of_illFormed hw
  exact step_raisedIn hr hp (fetchInstr_illegal ha hx he)

/-! ### A placed word -/

theorem placeAddr_aligned (s : State) : (placeAddr s).toNat % 4 = 0 := by
  rw [placeAddr, BitVec.toNat_and, show 4 = 2 ^ 2 from rfl, Nat.and_mod_two_pow]
  exact Nat.and_zero _

theorem placeWord_pc_ne_haltPc (s : State) (w : Word) : (placeWord s w).pc ≠ (placeWord s w).haltPc := by
  rw [placeWord_pc, placeWord]
  split
  case isTrue => simp
  case isFalse h => exact Ne.symm h

/-- A map entry for one byte of code makes that byte executable and leaves the others to the map behind it. -/
theorem executable_codeByte_cons (m m' : MemMap) (a b : Word) :
    executable (codeByte m b :: m') a = (decide (a = b) || executable m' a) := by
  have one_byte : spanHolds b 1 a = decide (a = b) := by
    rw [Bool.eq_iff_iff, spanHolds_eq_true, decide_eq_true_eq]
    bv_omega
  simp only [executable, regionAt, List.find?_cons, regionHolds, codeByte, one_byte]
  cases decide (a = b) <;> rfl

theorem placeWord_executable (s : State) (w : Word) :
    EveryByte 4 (placeWord s w).pc (executable (placeWord s w).map) := by
  intro k hk
  rw [placeWord_pc, placeWord]
  simp only [List.cons_append, executable_codeByte_cons, Bool.or_eq_true, decide_eq_true_eq]
  interval_cases k <;> simp

theorem fetchInstr_placeWord {w : Word} {i : Instr} (h : decode w = .ok i) (s : State) :
    fetchInstr (placeWord s w) = .ok i := by
  have placed : assemble (placeWord s w).byteOrder (fun k => byteAt (placeWord s w) (addrPlus (placeWord s w).pc k))
      .word = w := assemble_of_putBytes (w := .word) (placeWord_mem s w)
  exact fetchInstr_decoded (placeAddr_aligned s) (placeWord_executable s w) (placed.symm ▸ h)

theorem decodeTableWord_eq (nbits w : Nat) : decodeTableWord nbits w = (decode (tableWord nbits w)).toOption := by
  have bytes := decodeBytes_bytesOfWord .little (tableWord nbits w) []
  rw [List.append_nil] at bytes
  rw [decodeTableWord, bytes]
  cases decode (tableWord nbits w) <;> rfl

/-- Settles O20: the placed word is aligned, executable and not at `HALT_PC`, and it is the word the step fetches. -/
theorem placedInstructionRuns : Obligations.PlacedInstructionRuns := by
  intro s w i h
  have hd : decode (tableWord 32 w) = .ok i := by
    rw [decodeTableWord_eq] at h
    cases hd : decode (tableWord 32 w) with
    | ok j => rw [hd] at h; cases h; rfl
    | error e => rw [hd] at h; cases h
  exact step_of_fetch_ok rfl (placeWord_pc_ne_haltPc s _) (fetchInstr_placeWord hd s)

end Sys2Proof.Machine
end

section
/-! Which instructions use memory (20_memory.md R42, R57): one that is no load or store ends in `writeAndAdvance`,
`jumpAndLink` or `branchIf`, none of which reads memory; and a store to an executable byte fails the check of the map, because
with an admitted map that byte is not writable. -/

namespace Sys2Proof.Machine

/-! ### Instructions that make no access -/

theorem writeReg_withMem (s : State) (m : Memory) (r : Reg) (v : Word) :
    writeReg { s with mem := m } r v = { writeReg s r v with mem := m } := by
  unfold writeReg; split <;> rfl

/-- Where `r` answers a next state, its memory is that of `s`, and `r'` answers that state with the memory `m`. -/
def NextWithMem (s : State) (m : Memory) (r r' : Result) : Prop :=
  ∀ t, r = .next t → t.mem = s.mem ∧ r' = .next { t with mem := m }

theorem nextWithMem_next {s u u' : State} {m : Memory} (hu : u.mem = s.mem) (h : { u with mem := m } = u') :
    NextWithMem s m (.next u) (.next u') := by
  rintro t ⟨⟩
  exact ⟨hu, h ▸ rfl⟩

theorem nextWithMem_writeAndAdvance (rd : Reg) (v : Word) (s : State) (m : Memory) :
    NextWithMem s m (writeAndAdvance rd v s) (writeAndAdvance rd v { s with mem := m }) :=
  nextWithMem_next (writeReg_mem s rd v) (congrArg advance (writeReg_withMem s m rd v)).symm

theorem nextWithMem_transfer {s s₁ s₁' : State} {m : Memory} (a : Word) (hs : s₁.mem = s.mem)
    (h : { s₁ with mem := m } = s₁') : NextWithMem s m (transfer a s s₁) (transfer a { s with mem := m } s₁') := by
  unfold transfer
  split
  case isTrue => exact nextWithMem_next rfl rfl
  case isFalse => exact nextWithMem_next hs (congrArg (goTo · a) h)

theorem nextWithMem_jumpAndLink (rd : Reg) (a : Word) (s : State) (m : Memory) :
    NextWithMem s m (jumpAndLink rd a s) (jumpAndLink rd a { s with mem := m }) :=
  nextWithMem_transfer a (writeReg_mem s rd _) (writeReg_withMem s m rd _).symm

theorem nextWithMem_branchIf (c : Bool) (imm : Imm12) (s : State) (m : Memory) :
    NextWithMem s m (branchIf c imm s) (branchIf c imm { s with mem := m }) := by
  cases c with
  | true => exact nextWithMem_transfer _ rfl rfl
  | false => exact nextWithMem_next rfl rfl

/-- Settles O23: with another memory every operand is the same, so each ending answers the same state but for the
memory. -/
theorem onlyLoadsAndStoresUseMemory : Obligations.OnlyLoadsAndStoresUseMemory := by
  intro i s t m ha
  revert t
  cases i
  case lw | lh | lhu | lb | lbu | sw | sh | sb => cases ha
  case jal | jalr => exact nextWithMem_jumpAndLink _ _ s m
  case beq | bne | blt | bltu | bge | bgeu => exact nextWithMem_branchIf _ _ s m
  all_goals exact nextWithMem_writeAndAdvance _ _ s m

/-! ### Stores to code and fetches of data -/

theorem exec_of_store_access {i : Instr} {w : Width} {rs1 : Reg} {imm : Imm12} (h : i.access = some (true, w, rs1, imm))
    (s : State) : ∃ rs2, exec i s = storeFrom w rs2 rs1 imm s := by
  cases i
  case sw | sh | sb => cases h; exact ⟨_, rfl⟩
  all_goals cases h

/-- A byte of an access that fails the check of the map fails the check of the access. -/
theorem not_everyByte_of_touches {n : Nat} {a b : Word} {ok : Word → Bool} (ht : Touches n a b) (hb : ok b ≠ true) :
    ¬ EveryByte n a ok := by
  obtain ⟨k, hk, rfl⟩ := ht
  exact fun h => hb (h k hk)

/-- Settles O25: in an admitted map an executable byte fails the check of a store, and a writable byte that of a fetch. -/
theorem selfModifyingCodeRefused : Obligations.SelfModifyingCodeRefused := by
  refine fun s admitted => ⟨fun i w rs1 imm a hi ha ht hx => ?_, fun a hr hp ha ht hw => ?_⟩
  · obtain ⟨rs2, he⟩ := exec_of_store_access hi s
    obtain ⟨faults, -⟩ := storeOutcome_of_storeFrom he
    exact faults ha (not_everyByte_of_touches ht fun hw => admitted a ⟨hw, hx⟩)
  · obtain ⟨-, faults, -⟩ := fetchFaultsInOrder s hr hp
    exact faults ha (not_everyByte_of_touches ht fun hx => admitted a ⟨hw, hx⟩)

end Sys2Proof.Machine
end

section
/-! Which exceptions an instruction raises (60_exceptions.md R181): what leaves a running state faulted is `raise`, and each
ending of an instruction says which exceptions it raises and with which datum. -/

namespace Sys2Proof.Machine

/-- A faulted state that `r` answers has an exception and a datum that satisfy `p`. -/
def FaultsOnlyWith (r : Result) (p : Cause → Word → Prop) : Prop :=
  ∀ t e info, r = .next t → t.status = .faulted e info → p e info

theorem faultsOnlyWith_raise {p : Cause → Word → Prop} {e : Raised} {s : State} (h : p e.cause e.info) :
    FaultsOnlyWith (raise e s) p := by
  rintro t cause info ⟨⟩ ⟨⟩
  exact h

theorem faultsOnlyWith_next {p : Cause → Word → Prop} {s t : State} (hs : s.status = .running) (ht : t.status = s.status) :
    FaultsOnlyWith (.next t) p := by
  rintro u e info ⟨⟩ hu
  cases (ht.trans hs).symm.trans hu

theorem faultsOnlyWith_writeAndAdvance {s : State} (hs : s.status = .running) (rd : Reg) (v : Word) :
    FaultsOnlyWith (writeAndAdvance rd v s) fun _ _ => False :=
  faultsOnlyWith_next hs (writeReg_status s rd v)

/-- The exception of R140: the target, when it is not a multiple of 4. -/
def MisalignedTarget (target : Word) (e : Cause) (info : Word) : Prop :=
  e = .instructionAddressMisaligned ∧ info = target ∧ info.toNat % 4 ≠ 0

theorem faultsOnlyWith_jumpAndLink {s : State} (hs : s.status = .running) (rd : Reg) (t : Word) :
    FaultsOnlyWith (jumpAndLink rd t s) (MisalignedTarget t) := by
  rcases jumpAndLink_cases rd t s with ⟨-, h⟩ | ⟨ht, h⟩ <;> rw [h]
  · exact faultsOnlyWith_next hs (writeReg_status s rd _)
  · exact faultsOnlyWith_raise ⟨rfl, rfl, ht⟩

theorem faultsOnlyWith_branchIf {s : State} (hs : s.status = .running) (c : Bool) (imm : Imm12) :
    FaultsOnlyWith (branchIf c imm s) (MisalignedTarget (branchTarget s imm)) := by
  rcases branchIf_cases c imm s with ⟨-, h⟩ | ⟨-, -, h⟩ | ⟨-, ht, h⟩ <;> rw [h]
  · exact faultsOnlyWith_next hs rfl
  · exact faultsOnlyWith_next hs rfl
  · exact faultsOnlyWith_raise ⟨rfl, rfl, ht⟩

theorem faultsOnlyWith_loadInto {s : State} (hs : s.status = .running) (w : Width) (extend : BitVec w.bits → Word)
    (rd rs1 : Reg) (imm : Imm12) :
    FaultsOnlyWith (loadInto w extend rd rs1 imm s) fun e info =>
      (e = .loadAddressMisaligned ∧ (effectiveAddress s rs1 imm).toNat % w.bytes ≠ 0 ∨ e = .loadAccessFault) ∧
        info = effectiveAddress s rs1 imm := by
  rcases loadInto_outcomes w extend rd rs1 imm s with ⟨ha, h⟩ | ⟨-, -, h⟩ | ⟨-, -, h⟩ <;> rw [h]
  · exact faultsOnlyWith_raise ⟨.inl ⟨rfl, ha⟩, rfl⟩
  · exact faultsOnlyWith_raise ⟨.inr rfl, rfl⟩
  · exact faultsOnlyWith_next hs (writeReg_status s rd _)

theorem faultsOnlyWith_storeFrom {s : State} (hs : s.status = .running) (w : Width) (rs2 rs1 : Reg) (imm : Imm12) :
    FaultsOnlyWith (storeFrom w rs2 rs1 imm s) fun e info =>
      (e = .storeAddressMisaligned ∧ (effectiveAddress s rs1 imm).toNat % w.bytes ≠ 0 ∨ e = .storeAccessFault) ∧
        info = effectiveAddress s rs1 imm := by
  rcases storeFrom_outcomes w rs2 rs1 imm s with ⟨ha, h⟩ | ⟨-, -, h⟩ | ⟨-, -, h⟩ <;> rw [h]
  · exact faultsOnlyWith_raise ⟨.inl ⟨rfl, ha⟩, rfl⟩
  · exact faultsOnlyWith_raise ⟨.inr rfl, rfl⟩
  · exact faultsOnlyWith_next hs rfl

/-- Settles O49: each instruction is one of the endings, and an access of one byte is never misaligned. -/
theorem causesByInstruction : Obligations.CausesByInstruction := by
  intro i s t e info hs h ht
  cases i
  case jal | jalr => exact faultsOnlyWith_jumpAndLink hs _ _ t e info h ht
  case beq | bne | blt | bltu | bge | bgeu => exact faultsOnlyWith_branchIf hs _ _ t e info h ht
  case lw | lh | lhu =>
    obtain ⟨cause, datum⟩ := faultsOnlyWith_loadInto hs _ _ _ _ _ t e info h ht
    exact ⟨cause.imp_left And.left, datum⟩
  case sw | sh =>
    obtain ⟨cause, datum⟩ := faultsOnlyWith_storeFrom hs _ _ _ _ t e info h ht
    exact ⟨cause.imp_left And.left, datum⟩
  case lb | lbu =>
    obtain ⟨⟨-, ha⟩ | cause, datum⟩ := faultsOnlyWith_loadInto hs .byte _ _ _ _ t e info h ht
    · exact absurd (Nat.mod_one _) ha
    · exact ⟨cause, datum⟩
  case sb =>
    obtain ⟨⟨-, ha⟩ | cause, datum⟩ := faultsOnlyWith_storeFrom hs .byte _ _ _ t e info h ht
    · exact absurd (Nat.mod_one _) ha
    · exact ⟨cause, datum⟩
  all_goals exact faultsOnlyWith_writeAndAdvance hs _ _ t e info h ht

end Sys2Proof.Machine
end

section
/-! The launch (10_state.md R35, 20_memory.md R52, 70_reset_and_hazards.md R200, R201): a launch is refused exactly where a
condition of R52 fails, because a failure anywhere shows at a bound; every other launch gives one state, and what that state
holds is kept by the run. -/

namespace Sys2Proof.Machine

/-! ### Where the conditions of R52 fail -/

theorem clashAt_eq_true {m : MemMap} {a : Word} :
    clashAt m a = true ↔ writable m a = true ∧ executable m a = true := by
  rw [clashAt, Bool.and_eq_true]

theorem missingAt_eq_true {p : Launch} {a : Word} :
    missingAt p a = true ↔ (readable p.map a = true ∨ executable p.map a = true) ∧ initByte p a = none := by
  rw [missingAt, Bool.and_eq_true, Bool.or_eq_true, Option.isNone_iff_eq_none]

/-- A clash anywhere shows at a bound of the map. -/
theorem mapClashes_eq_true {m : MemMap} :
    mapClashes m = true ↔ ∃ a, writable m a = true ∧ executable m a = true := by
  simp only [← clashAt_eq_true]
  refine any_bounds (fun hz => ?_) fun a h0 hb ha => ?_
  · rw [clashAt, writable, regionAt_zero hz]; rfl
  · rwa [clashAt, writable, executable, ← regionAt_pred h0 hb]

/-- A missing initial byte anywhere shows at a bound of the map or of `INIT_MEM`. -/
theorem initMissing_eq_true {p : Launch} :
    initMissing p = true ↔
      ∃ a, (readable p.map a = true ∨ executable p.map a = true) ∧ initByte p a = none := by
  simp only [← missingAt_eq_true]
  refine any_bounds (fun hz => ?_) fun a h0 hb ha => ?_
  · obtain ⟨hmap, -⟩ := not_or.1 (mt List.mem_append.2 hz)
    rw [missingAt, readable, executable, regionAt_zero hmap]; rfl
  · obtain ⟨hmap, hinit⟩ := not_or.1 (mt List.mem_append.2 hb)
    obtain ⟨mapped, missing⟩ := missingAt_eq_true.1 ha
    rw [readable, executable, regionAt_pred h0 hmap] at mapped
    exact missingAt_eq_true.2 ⟨mapped, initByte_pred_none h0 hinit missing⟩

/-- Settles O52: the refusal asks the two conditions at the bounds, where a failure shows. -/
theorem launchRefusedExactly : Obligations.LaunchRefusedExactly := by
  intro p
  rw [← mapClashes_eq_true, ← initMissing_eq_true, ← Bool.or_eq_true, launch]
  split
  case isTrue h => exact iff_of_true rfl h
  case isFalse h => exact iff_of_false (fun taken => by cases taken) h

/-! ### The first state -/

/-- The state that the launch parameters describe (10_state.md R35). -/
def Launch.firstState (p : Launch) : State where
  x := p.initX
  pc := p.entryPc
  mem := initMemory p.initMem
  status := .running
  byteOrder := p.byteOrder
  map := p.map
  haltPc := p.haltPc

theorem launchAdmitted_iff {p : Launch} : LaunchAdmitted p ↔ mapClashes p.map = false ∧ initMissing p = false := by
  rw [← Bool.not_eq_true, ← Bool.not_eq_true, mapClashes_eq_true, initMissing_eq_true, not_exists, not_exists]
  exact ⟨fun h => ⟨h.map, fun a ⟨mapped, missing⟩ => h.init a mapped missing⟩,
    fun ⟨hmap, hinit⟩ => ⟨hmap, fun a mapped missing => hinit a ⟨mapped, missing⟩⟩⟩

/-- A launch gives a state exactly if it breaks no condition of R52, and then its first state. -/
theorem launch_eq_next_iff {p : Launch} {s : State} : launch p = .next s ↔ LaunchAdmitted p ∧ s = p.firstState := by
  rw [launchAdmitted_iff, launch]
  split
  case isTrue h =>
    refine ⟨fun hs => (by cases hs), fun ⟨⟨hmap, hinit⟩, _⟩ => ?_⟩
    rw [hmap, hinit] at h
    cases h
  case isFalse h =>
    rw [Bool.not_eq_true, Bool.or_eq_false_iff] at h
    exact ⟨fun hs => (by cases hs; exact ⟨h, rfl⟩), fun ⟨_, hs⟩ => hs ▸ rfl⟩

theorem launch_of_admitted {p : Launch} (h : LaunchAdmitted p) : launch p = .next p.firstState :=
  launch_eq_next_iff.2 ⟨h, rfl⟩

/-- The first state holds every initial byte: a listed one is in memory, and a blank one is what an unlisted byte reads as. -/
theorem byteAt_firstState {p : Launch} {a : Word} {b : Byte} (h : initByte p a = some b) :
    byteAt p.firstState a = b := by
  have value : byteAt p.firstState a = (initCell p.initMem a).getD Config.unlistedByte := memByte_initMemory p.initMem a
  rw [value]
  rcases initByte_cases p a with ⟨c, hcell, hc⟩ | ⟨hcell, -, hc⟩ | ⟨-, -, hc⟩ <;> cases h.symm.trans hc
  · rw [hcell]; rfl
  · rw [hcell]; rfl

theorem readReg_of_ne_zero {s : State} {r : Reg} (h : r.toNat - 1 < 31) (hr : r ≠ 0#5) :
    readReg s r = s.x[r.toNat - 1] := by
  rw [readReg, dif_neg hr]

/-- Settles O50: each part is read off the first state. -/
theorem launchGivesFirstState : Obligations.LaunchGivesFirstState := fun p admitted =>
  ⟨p.firstState, launch_of_admitted admitted, readReg_zero _, fun _ => readReg_of_ne_zero, rfl,
    fun _ _ => byteAt_firstState, rfl, rfl, rfl, rfl⟩

/-- Settles O51: the memory of a launch is canonical, and the other two parts are what is asked of the launch. -/
theorem launchHasInvariant : Obligations.LaunchHasInvariant := fun p admitted aligned =>
  ⟨p.firstState, launch_of_admitted admitted, initMemory_wf p.initMem, admitted.map, aligned⟩

/-- Settles O53: the launch is taken, and its first step ends the run at `HALT_PC` or meets the misaligned pc. -/
theorem misalignedEntryRaisesAtFirstStep : Obligations.MisalignedEntryRaisesAtFirstStep := by
  intro p admitted misaligned
  by_cases hp : p.entryPc = p.haltPc
  · exact ⟨p.firstState, endRun p.firstState, launch_of_admitted admitted, step_atHalt rfl hp,
      fun h => absurd hp h, fun _ => ⟨rfl, fun _ => rfl, fun _ => rfl, rfl⟩⟩
  · obtain ⟨t, ht, raised⟩ := step_raisedIn (s := p.firstState) rfl hp (fetchInstr_misaligned misaligned)
    exact ⟨p.firstState, t, launch_of_admitted admitted, ht, fun _ => raised, fun h => absurd h hp⟩

/-! ### The program of a run -/

/-- What every step keeps holds in every state of a run whose first state has it. -/
theorem reaches_keeps {motive : State → Prop} (keeps : ∀ s t, motive s → step s = .next t → motive t) {n : Nat}
    {s t : State} (h : Reaches n s t) (hs : motive s) : motive t := by
  induction n generalizing s with
  | zero => exact reaches_zero.1 h ▸ hs
  | succ n ih =>
    obtain ⟨u, hu, hrest⟩ := reaches_succ.1 h
    exact ih hrest (keeps s u hs hu)

theorem holdsProgram_firstState {p : Launch} (admitted : LaunchAdmitted p) : HoldsProgram p p.firstState where
  admitted := admitted.map
  map := rfl
  program a hx := by
    obtain ⟨b, hb⟩ := Option.ne_none_iff_exists'.1 (admitted.init a (.inr hx))
    rw [hb, byteAt_firstState hb]

/-- Settles O26: the first state holds the program, and every step keeps it. -/
theorem programFixedForTheRun : Obligations.ProgramFixedForTheRun := by
  intro p s t n hl hn
  obtain ⟨admitted, rfl⟩ := launch_eq_next_iff.1 hl
  have holds := reaches_keeps (stepKeepsProgram p) hn (holdsProgram_firstState admitted)
  exact ⟨holds.map, holds.program⟩

/-! ### Reset -/

/-- Settles O19: the reset launch breaks no condition of R52, and its first state is the reset state. -/
theorem resetIsALaunch : Obligations.ResetIsALaunch := ⟨readReg_zero _, rfl, rfl⟩

theorem resetLaunch_admitted : LaunchAdmitted resetLaunch := by
  obtain ⟨-, -, taken⟩ := resetIsALaunch
  obtain ⟨admitted, -⟩ := launch_eq_next_iff.1 taken
  exact admitted

/-- Settles O18: reset is an admitted launch with an aligned entry. -/
theorem resetHasInvariant : Obligations.ResetHasInvariant := by
  obtain ⟨s, taken, inv⟩ := launchHasInvariant resetLaunch resetLaunch_admitted rfl
  obtain ⟨-, -, reset⟩ := resetIsALaunch
  cases taken.symm.trans reset
  exact inv

end Sys2Proof.Machine
end
